-- ==== Sys2Proof/Word.lean ====
section
/-! DEFINITION. The words of the 3at codec core: the bit patterns that travel on its buses and stand in its registers
(00_scope.md R10 to R13). -/

namespace Sys2Proof

/-- A bus of the command port, `A`, `B`, `C` or `Y`: 64 bits (R10 `BUS_W`, R50). -/
abbrev Word := BitVec 64

/-- An opcode: 8 bits (R50). -/
abbrev Opcode := BitVec 8

/-- A coded byte: two ADP4 symbols (R58) or one SDX2 symbol (R60). -/
abbrev Byte := BitVec 8

/-- An ADP4 symbol (R10 `ADP4_SYMBOL_W`, R57). -/
abbrev Nibble := BitVec 4

/-- A single bit (R12 `v[i]`). -/
abbrev Bit := BitVec 1

/-- The 16-bit two's complement field that stores an `int16` (R10 `SAMPLE_W`, R13). -/
abbrev Sample := BitVec 16

/-- An ADP4 byte's high nibble `b[7:4]`, the symbol of the earlier sample (R12, R58). -/
abbrev highNibble (b : Byte) : Nibble := b.extractLsb' 4 4

/-- An ADP4 byte's low nibble `b[3:0]`, the symbol of the later sample (R12, R58). -/
abbrev lowNibble (b : Byte) : Nibble := b.extractLsb' 0 4

end Sys2Proof
end

