-- ==== Sys2Proof/Syntax.lean ====
section
/-! DEFINITION. The command as it is presented to the core, and the instruction it stands for. -/

namespace Sys2Proof

/-- A command as presented on the command port: `(OP, A, B, C)` (30_encoding.md R50). -/
structure Command where
  op : Opcode
  a : Word
  b : Word
  c : Word
deriving DecidableEq, Repr

/-- One constructor per row of spec/opcode_table.json (R54), with the operands R62 gives it. What R62 reads as `sext_N` or
`zext_N` is an integer here, what it reads as bits is a bit vector; the ranges of the integers are `Instr.wellFormed` (log 12). -/
inductive Instr where
  /-- `CLU.CLAMP16 x` (R140) -/
  | cluClamp16 (x : Int)
  /-- `CLU.CLAMP x, lo, hi` (R141) -/
  | cluClamp (x lo hi : Int)
  /-- `A4D.INIT` (R74) -/
  | a4dInit
  /-- `A4D.LOAD p, i` (R75) -/
  | a4dLoad (p : Int) (i : Nat)
  /-- `A4D.READ` (R76) -/
  | a4dRead
  /-- `A4D.SYM n` (R77) -/
  | a4dSym (n : Nibble)
  /-- `A4D.BYTE b` (R78) -/
  | a4dByte (b : Byte)
  /-- `A4D.HIGH b` (R79) -/
  | a4dHigh (b : Byte)
  /-- `A4E.INIT` (R87) -/
  | a4eInit
  /-- `A4E.LOAD p, i, c` with `q = C[3:0]` and `h = C[8]` (R88) -/
  | a4eLoad (p : Int) (i : Nat) (q : Nibble) (h : Bit)
  /-- `A4E.READ` (R89) -/
  | a4eRead
  /-- `A4E.SYM x` (R90) -/
  | a4eSym (x : Int)
  /-- `A4E.PUSH x` (R91) -/
  | a4ePush (x : Int)
  /-- `A4E.FLUSH` (R92) -/
  | a4eFlush
  /-- `S2D.INIT k` (R105) -/
  | s2dInit (k : Nat)
  /-- `S2D.LOAD p, c, q` (R106) -/
  | s2dLoad (p : Int) (c q : Bit)
  /-- `S2D.READ` (R107) -/
  | s2dRead
  /-- `S2D.BYTE b` (R108) -/
  | s2dByte (b : Byte)
  /-- `S2E.INIT k` (R123) -/
  | s2eInit (k : Nat)
  /-- `S2E.LOAD p, c, q` with `f = C[8]` (R124) -/
  | s2eLoad (p : Int) (c q f : Bit)
  /-- `S2E.READ` (R125) -/
  | s2eRead
  /-- `S2E.SAMPLE x` (R126) -/
  | s2eSample (x : Int)
deriving DecidableEq, Repr

end Sys2Proof
end

