-- ==== Sys2Proof/WellFormed.lean ====
section
/-! DEFINITION. Which instructions the encoding can hold: every integer operand lies in the range of its field (30_encoding.md
R62; 00_scope.md R13). An operand a command REJECTS (an index above 88, a channel count of 3) is well formed: rejecting it is
the command's own effect (R171). -/

namespace Sys2Proof

/-- The range of `sext_N`, `[-2^(N-1), 2^(N-1) - 1]` (R13). -/
def fitsSigned (bits : Nat) (z : Int) : Bool := decide (-(2 ^ (bits - 1)) ≤ z) && decide (z < 2 ^ (bits - 1))

/-- The range of `zext_N`, `[0, 2^N - 1]` (R13). -/
def fitsUnsigned (bits : Nat) (n : Nat) : Bool := decide (n < 2 ^ bits)

/-- The instruction's operands fit the fields R62 gives them. -/
def Instr.wellFormed : Instr → Bool
  | .cluClamp16 x => fitsSigned 64 x
  | .cluClamp x lo hi => fitsSigned 64 x && fitsSigned 64 lo && fitsSigned 64 hi
  | .a4dInit => true
  | .a4dLoad p i => fitsSigned 16 p && fitsUnsigned 8 i
  | .a4dRead => true
  | .a4dSym _ => true
  | .a4dByte _ => true
  | .a4dHigh _ => true
  | .a4eInit => true
  | .a4eLoad p i _ _ => fitsSigned 16 p && fitsUnsigned 8 i
  | .a4eRead => true
  | .a4eSym x => fitsSigned 16 x
  | .a4ePush x => fitsSigned 16 x
  | .a4eFlush => true
  | .s2dInit k => fitsUnsigned 8 k
  | .s2dLoad p _ _ => fitsSigned 16 p
  | .s2dRead => true
  | .s2dByte _ => true
  | .s2eInit k => fitsUnsigned 8 k
  | .s2eLoad p _ _ _ => fitsSigned 16 p
  | .s2eRead => true
  | .s2eSample x => fitsSigned 16 x

end Sys2Proof
end

