-- ==== Sys2Proof/Decode.lean ====
section
/-! DEFINITION. From a command to its instruction and back (30_encoding.md R50 to R56, R62, R63). `decode` is total: the opcode
alone selects the row (R50), and an opcode outside R54 is rejected by name (R55). -/

namespace Sys2Proof

/-- `v[lo + w - 1 : lo]` as a `w`-bit pattern (R12). -/
def bitField (v : Word) (lo w : Nat) : BitVec w := v.extractLsb' lo w

/-- `sext_N(v[N-1:0])` (R13). -/
def sextField (bits : Nat) (v : Word) : Int := (bitField v 0 bits).toInt

/-- `zext_N(v[N-1:0])` (R13). -/
def zextField (bits : Nat) (v : Word) : Nat := (bitField v 0 bits).toNat

/-- One row of the opcode map R54: the opcode, and the operands R62 reads. Every row's mask is 0xFF. -/
structure OpcodeRow where
  op : Opcode
  build : Command → Instr

/-- The CLU and A4D rows of R54 with their operand rows of R62. -/
def opcodeRowsCluA4d : List OpcodeRow :=
  [ ⟨0x10, fun k => .cluClamp16 (sextField 64 k.a)⟩,
    ⟨0x11, fun k => .cluClamp (sextField 64 k.a) (sextField 64 k.b) (sextField 64 k.c)⟩,
    ⟨0x20, fun _ => .a4dInit⟩,
    ⟨0x21, fun k => .a4dLoad (sextField 16 k.a) (zextField 8 k.b)⟩,
    ⟨0x22, fun _ => .a4dRead⟩,
    ⟨0x23, fun k => .a4dSym (bitField k.a 0 4)⟩,
    ⟨0x24, fun k => .a4dByte (bitField k.a 0 8)⟩,
    ⟨0x25, fun k => .a4dHigh (bitField k.a 0 8)⟩ ]

/-- The A4E rows of R54 with their operand rows of R62. -/
def opcodeRowsA4e : List OpcodeRow :=
  [ ⟨0x30, fun _ => .a4eInit⟩,
    ⟨0x31, fun k => .a4eLoad (sextField 16 k.a) (zextField 8 k.b) (bitField k.c 0 4) (bitField k.c 8 1)⟩,
    ⟨0x32, fun _ => .a4eRead⟩,
    ⟨0x33, fun k => .a4eSym (sextField 16 k.a)⟩,
    ⟨0x34, fun k => .a4ePush (sextField 16 k.a)⟩,
    ⟨0x35, fun _ => .a4eFlush⟩ ]

/-- The S2D and S2E rows of R54 with their operand rows of R62. -/
def opcodeRowsSdx2 : List OpcodeRow :=
  [ ⟨0x40, fun k => .s2dInit (zextField 8 k.a)⟩,
    ⟨0x41, fun k => .s2dLoad (sextField 16 k.a) (bitField k.b 0 1) (bitField k.c 0 1)⟩,
    ⟨0x42, fun _ => .s2dRead⟩,
    ⟨0x43, fun k => .s2dByte (bitField k.a 0 8)⟩,
    ⟨0x50, fun k => .s2eInit (zextField 8 k.a)⟩,
    ⟨0x51, fun k => .s2eLoad (sextField 16 k.a) (bitField k.b 0 1) (bitField k.c 0 1) (bitField k.c 8 1)⟩,
    ⟨0x52, fun _ => .s2eRead⟩,
    ⟨0x53, fun k => .s2eSample (sextField 16 k.a)⟩ ]

/-- The complete opcode map R54. -/
def opcodeTable : List OpcodeRow := opcodeRowsCluA4d ++ opcodeRowsA4e ++ opcodeRowsSdx2

/-- Why a command is no instruction. -/
inductive DecodeError where
  /-- the opcode is none of R54's: the core raises `IllegalOp` (R55) -/
  | reservedOpcode (op : Opcode)
deriving DecidableEq, Repr

/-- The instruction a command stands for, or the name of the reason why it is none. -/
def decode (k : Command) : Except DecodeError Instr :=
  match opcodeTable.find? (fun row => row.op == k.op) with
  | some row => .ok (row.build k)
  | none => .error (.reservedOpcode k.op)

/-- An integer placed on a bus as a 64-bit two's complement value (R63). -/
def busInt (z : Int) : Word := BitVec.ofInt 64 z

/-- An unsigned integer placed on a bus (R63). -/
def busNat (n : Nat) : Word := BitVec.ofNat 64 n

/-- A bit pattern placed on a bus at bit `lo` (R62). -/
def busBits {w : Nat} (lo : Nat) (v : BitVec w) : Word := v.setWidth 64 <<< lo

/-- The command that stands for an instruction: the opcode of R54, the operands in their R62 fields, every other operand bit
as R63 leaves it (the sign extension of a signed operand, else 0; an omitted operand is 0). -/
def encode : Instr → Command
  | .cluClamp16 x => ⟨0x10, busInt x, 0, 0⟩
  | .cluClamp x lo hi => ⟨0x11, busInt x, busInt lo, busInt hi⟩
  | .a4dInit => ⟨0x20, 0, 0, 0⟩
  | .a4dLoad p i => ⟨0x21, busInt p, busNat i, 0⟩
  | .a4dRead => ⟨0x22, 0, 0, 0⟩
  | .a4dSym n => ⟨0x23, busBits 0 n, 0, 0⟩
  | .a4dByte b => ⟨0x24, busBits 0 b, 0, 0⟩
  | .a4dHigh b => ⟨0x25, busBits 0 b, 0, 0⟩
  | .a4eInit => ⟨0x30, 0, 0, 0⟩
  | .a4eLoad p i q h => ⟨0x31, busInt p, busNat i, busBits 0 q ||| busBits 8 h⟩
  | .a4eRead => ⟨0x32, 0, 0, 0⟩
  | .a4eSym x => ⟨0x33, busInt x, 0, 0⟩
  | .a4ePush x => ⟨0x34, busInt x, 0, 0⟩
  | .a4eFlush => ⟨0x35, 0, 0, 0⟩
  | .s2dInit k => ⟨0x40, busNat k, 0, 0⟩
  | .s2dLoad p c q => ⟨0x41, busInt p, busBits 0 c, busBits 0 q⟩
  | .s2dRead => ⟨0x42, 0, 0, 0⟩
  | .s2dByte b => ⟨0x43, busBits 0 b, 0, 0⟩
  | .s2eInit k => ⟨0x50, busNat k, 0, 0⟩
  | .s2eLoad p c q f => ⟨0x51, busInt p, busBits 0 c, busBits 0 q ||| busBits 8 f⟩
  | .s2eRead => ⟨0x52, 0, 0, 0⟩
  | .s2eSample x => ⟨0x53, busInt x, 0, 0⟩

/-- The command whose bits, numbered as one number, are the low `nbits` bits of `w`: `OP` in bits 7..0 (as
spec/opcode_table.json numbers it), then `A` in 71..8, `B` in 135..72, `C` in 199..136; every bit from `nbits` up is 0.
DESIGN CHOICE: the spec gives the tuple `(OP, A, B, C)` (R50) no numbering above `OP`; log 4. -/
def commandOfTableWord (nbits w : Nat) : Command :=
  let v := w % 2 ^ nbits
  ⟨BitVec.ofNat 8 v, BitVec.ofNat 64 (v / 2 ^ 8), BitVec.ofNat 64 (v / 2 ^ 72), BitVec.ofNat 64 (v / 2 ^ 136)⟩

/-- What the decoder reads from a word of the opcode table. -/
def decodeTableWord (nbits w : Nat) : Option Instr :=
  match decode (commandOfTableWord nbits w) with
  | .ok i => some i
  | .error _ => none

end Sys2Proof
end

