-- ==== Sys2Proof/Config.lean ====
section
/-! DEFINITION. What is fixed for the machine but not by the spec: the alternatives of the parameters that
93_implementation_defined.md names (their chosen values stand in Machine/Params.lean), and the free values, constants with
no body. -/

namespace Sys2Proof.Config

/-- I12, parameter `SDX2_RSQ`: how `round(sqrt(|v|/2))` reads its division. -/
inductive RsqReading where
  /-- exact real division (rule R115, the default) -/
  | exact
  /-- `round(sqrt(floor(|v|/2)))`, the alternative reading I12 names -/
  | floorHalf
deriving DecidableEq, Repr

/-- I13, parameter `SDX2_CODE_OVERFLOW`: what an SDX2 code of magnitude 128 becomes. -/
inductive CodeOverflow where
  /-- clamp to 127 (rule R116, the default) -/
  | clamp
  /-- wrap: code 128 becomes byte 0x80 -/
  | wrap
deriving DecidableEq, Repr

/-- The two byte orders a 16-bit sample can have in a host buffer (R43). -/
inductive ByteOrder where
  | littleEndian
  | bigEndian
deriving DecidableEq, Repr, Inhabited

/-- The OPEN parameter `HOST_SAMPLE_ORDER` (R10, R43, decision D27): no body, and nothing in the model reads it. Log 13. -/
opaque hostSampleOrder : ByteOrder

/-- FREE VALUE: the 16-bit step size at an index above 88, where `STEP_TABLE` has no entry (R23). A value of IDX above 88 is
in no reachable state (R21). DESIGN CHOICE, safe; log 6. -/
opaque stepBeyond : Nat → BitVec 16

/-- FREE VALUE: `n mod 0`, which R18 does not define. It is met only where `NCH` is 0, in no reachable state (R30).
DESIGN CHOICE, safe; log 7. -/
opaque modZero : Nat → Nat

end Sys2Proof.Config
end

