-- ==== Sys2Proof/Machine/Params.lean ====
section
/-! DEFINITION. The implementation parameters of 00_scope.md R10 and the two read-only tables of 10_state.md R23 and R24. No
command writes any of them (R36). -/

namespace Sys2Proof.Machine

/-- The least `int16` (R10 `SAMPLE_W`, R136). -/
def sampleMin : Int := -32768

/-- The greatest `int16` (R10 `SAMPLE_W`, R136). -/
def sampleMax : Int := 32767

/-- `ADP4_IDX_MAX` (R10): the step index range is 0 to 88. -/
def adp4IdxMax : Nat := 88

/-- `STEP_TABLE` (R23), indexes 0 to 49. PRESUMED: the standard IMA/DVI table, which R23 takes; log 5. -/
def stepTableLow : List Nat :=
  [7, 8, 9, 10, 11, 12, 13, 14, 16, 17] ++
  [19, 21, 23, 25, 28, 31, 34, 37, 41, 45] ++
  [50, 55, 60, 66, 73, 80, 88, 97, 107, 118] ++
  [130, 143, 157, 173, 190, 209, 230, 253, 279, 307] ++
  [337, 371, 408, 449, 494, 544, 598, 658, 724, 796]

/-- `STEP_TABLE` (R23), indexes 50 to 88. -/
def stepTableHigh : List Nat :=
  [876, 963, 1060, 1166, 1282, 1411, 1552, 1707, 1878, 2066] ++
  [2272, 2499, 2749, 3024, 3327, 3660, 4026, 4428, 4871, 5358] ++
  [5894, 6484, 7132, 7845, 8630, 9493, 10442, 11487, 12635, 13899] ++
  [15289, 16818, 18500, 20350, 22385, 24623, 27086, 29794, 32767]

/-- `STEP_TABLE`, 89 unsigned entries indexed by the step index (R23). -/
def stepTable : List Nat := stepTableLow ++ stepTableHigh

/-- `STEP_TABLE[i]`: the step size at index `i` (R22, R23). Above 88 the table has no entry and the free value
`Config.stepBeyond` stands there; log 6. -/
def stepSize (i : Nat) : Nat :=
  match stepTable[i]? with
  | some step => step
  | none => (Config.stepBeyond i).toNat

/-- `INDEX_DELTA`, 16 signed entries indexed by the whole symbol (R24). PRESUMED: the standard IMA/DVI table, which R24 takes;
log 5. -/
def indexDelta : Vector Int 16 := #v[-1, -1, -1, -1, 2, 4, 6, 8, -1, -1, -1, -1, 2, 4, 6, 8]

/-- `INDEX_DELTA[n]` (R24). -/
def indexDeltaOf (n : Nibble) : Int := indexDelta[n.toNat]'n.isLt

/-- `SDX2_GUARD` (R10, R121; I15). -/
def sdx2GuardLimit : Nat := 30000

/-- `SDX2_SEARCH_STEP` (R10, R120, R121). -/
def sdx2SearchStep : Int := 2

/-- `SDX2_RSQ` (I12) at its default, rule R115; log 16. -/
def rsqReading : Config.RsqReading := .exact

/-- `SDX2_CODE_OVERFLOW` (I13) at its default, rule R116; log 16. -/
def codeOverflow : Config.CodeOverflow := .clamp

end Sys2Proof.Machine
end

