-- ==== Sys2Proof/Machine/State.lean ====
section
/-! DEFINITION. The state of the core (10_state.md), the reasons a step can stop, and the state after reset (R34, R185). -/

namespace Sys2Proof.Machine

/-- The registers of the ADP4 decoder A4D (R21). `STEP` is derived (R22). -/
structure A4dRegs where
  /-- `A4D.PRED`, signed -/
  pred : BitVec 16
  /-- `A4D.IDX`, unsigned, legal values 0 to 88 -/
  idx : BitVec 7
deriving DecidableEq, Repr

/-- The registers of the ADP4 encoder A4E (R25, R26). `STEP` is derived (R22). -/
structure A4eRegs where
  /-- `A4E.PRED`, signed -/
  pred : BitVec 16
  /-- `A4E.IDX`, unsigned, legal values 0 to 88 -/
  idx : BitVec 7
  /-- `A4E.PHASE`: 1 while `pend` holds the first symbol of an unfinished byte -/
  phase : BitVec 1
  /-- `A4E.PEND`: the pending high nibble -/
  pend : BitVec 4
deriving DecidableEq, Repr

/-- The registers of the SDX2 decoder S2D (R27). -/
structure S2dRegs where
  /-- `S2D.NCH`, unsigned, legal values 1 and 2 -/
  nch : BitVec 2
  /-- `S2D.CH`, the channel the next byte belongs to -/
  ch : BitVec 1
  /-- `S2D.PREV[0]`, signed -/
  prev0 : BitVec 16
  /-- `S2D.PREV[1]`, signed -/
  prev1 : BitVec 16
deriving DecidableEq, Repr

/-- The registers of the SDX2 encoder S2E (R28). -/
structure S2eRegs where
  /-- `S2E.NCH`, unsigned, legal values 1 and 2 -/
  nch : BitVec 2
  /-- `S2E.CH`, the channel of the next sample -/
  ch : BitVec 1
  /-- `S2E.PREV[0]`, signed -/
  prev0 : BitVec 16
  /-- `S2E.PREV[1]`, signed -/
  prev1 : BitVec 16
  /-- `S2E.STARTED[0]` -/
  started0 : BitVec 1
  /-- `S2E.STARTED[1]` -/
  started1 : BitVec 1
deriving DecidableEq, Repr

/-- The core's answer to one command: the result bus `Y` and the 2-bit error code `ERR` (R50, R52). -/
structure Response where
  y : BitVec 64
  err : BitVec 2
deriving DecidableEq, Repr

/-- What the outside world presents to the core, one at a time (R50, R185). -/
inductive Input where
  /-- a command on the command port (R50) -/
  | command (k : Command)
  /-- the reset input, asserted and released (R185); log 11 -/
  | reset
deriving DecidableEq, Repr

/-- The state: the registers of the four units that have any (R20, R29), and two fields of the MODEL's own (R32 says the spec
gives the machine neither; log 1). -/
structure State where
  a4d : A4dRegs
  a4e : A4eRegs
  s2d : S2dRegs
  s2e : S2eRegs
  /-- MODEL's own: what the outside has presented and the core has not yet taken, oldest first -/
  port : List Input
  /-- MODEL's own: the response to the command the last step ran; `none` where that step ran none -/
  rsp : Option Response
deriving DecidableEq, Repr

/-- The reasons a step stops with a fault: none. "There are no traps": an error is a response, after which "the next command
is accepted and executed normally" (R173). Nobody raises one, and that is what the spec says (log 10). -/
inductive Fault where
deriving DecidableEq, Repr

/-- The reasons a step is refused. -/
inductive Refusal where
  /-- An arm of `exec` raises it whose instruction has no meaning in the model yet; safe. No arm does: all 22 commands have
  their meaning. -/
  | notModelled (mnemonic : String)
deriving DecidableEq, Repr

/-- What a meaning and a step answer. -/
abbrev Result := Host.Outcome State Fault Refusal

/-- The machine right after reset: every register at R34's value ("each unit is in the state its `INIT` gives, and the SDX2
units have one channel", R185), nothing presented to the core and no response. Log 1, log 8. -/
def State.reset : State where
  a4d := ⟨0, 0⟩
  a4e := ⟨0, 0, 0, 0⟩
  s2d := ⟨1, 0, 0, 0⟩
  s2e := ⟨1, 0, 0, 0, 0, 0⟩
  port := []
  rsp := none

end Sys2Proof.Machine
end

