-- ==== Sys2Proof/Machine/Operands.lean ====
section
/-! DEFINITION. Integers in registers and on the result bus: narrowing, reading, the fields of `Y` (00_scope.md R13, R14), the
channel-indexed registers and the channel sequence (R27, R28, R100). The operands of a command are read by Decode.lean. -/

namespace Sys2Proof.Machine

/-- `bits_N(z)`: the N-bit two's complement pattern of an integer (R13). Writing a register narrows its value with it (R14). -/
def bitsOf (w : Nat) (z : Int) : BitVec w := BitVec.ofInt w z

/-- `Y[lo + w - 1 : lo] <- v` (R14): that field becomes `v`, every other bit stays. -/
def setField {w : Nat} (y : Word) (lo : Nat) (v : BitVec w) : Word :=
  (y &&& ~~~((BitVec.allOnes w).setWidth 64 <<< lo)) ||| (v.setWidth 64 <<< lo)

/-- The result bus before a command sets a field: every bit a rule does not set is 0 (R14). -/
def yZero : Word := 0

/-- A unit's ADP4 state `(p, i)` as integers, from its registers `PRED` and `IDX` (R14, R70). -/
def adp4Pair (pred : BitVec 16) (idx : BitVec 7) : Int × Nat := (pred.toInt, idx.toNat)

/-- The step size as the 16-bit field `STEP` that `READ` returns (R22, R76, R89). -/
def stepField (idx : BitVec 7) : BitVec 16 := BitVec.ofNat 16 (stepSize idx.toNat)

/-- `R[c]` of a register pair indexed by channel (R27, R28). -/
def channelGet {w : Nat} (c : Bit) (r0 r1 : BitVec w) : BitVec w := if c = 0 then r0 else r1

/-- `R[0]` after `R[c] <- v`. -/
def channelSet0 {w : Nat} (c : Bit) (v r0 : BitVec w) : BitVec w := if c = 0 then v else r0

/-- `R[1]` after `R[c] <- v`. -/
def channelSet1 {w : Nat} (c : Bit) (v r1 : BitVec w) : BitVec w := if c = 0 then r1 else v

/-- `n mod k` (R18), which is defined for `k > 0`; for `k = 0` the free value `Config.modZero`; log 7. -/
def modulo (n k : Nat) : Nat := if k = 0 then Config.modZero n else n % k

/-- `CH <- (c + 1) mod NCH` (R100), narrowed to the one bit of `CH` (R14). -/
def nextChannel (c : Bit) (nch : BitVec 2) : Bit := BitVec.ofNat 1 (modulo (c.toNat + 1) nch.toNat)

/-- A channel operand names a channel the stream does not have: `c >= NCH` (R106, R124). -/
def missingChannel (c : Bit) (nch : BitVec 2) : Bool := decide (nch.toNat ≤ c.toNat)

/-- A channel count the `INIT` commands accept (R105, R123). -/
def legalChannelCount (k : Nat) : Bool := k == 1 || k == 2

end Sys2Proof.Machine
end

