-- ==== Sys2Proof/Machine/Flags.lean ====
section
/-! DEFINITION. What a response reports beside its value: the error codes of `ERR` (30_encoding.md R52) and the byte-valid bit
`Y[8]` of the packing commands (R91, R92). The core has no flags that persist (10_state.md R33). -/

namespace Sys2Proof.Machine

/-- `ERR` 0: the command completed (R52). -/
def errOk : BitVec 2 := 0

/-- `ERR` 1: `InvalidArgument`, an operand value was rejected (R52, R170). -/
def errInvalidArgument : BitVec 2 := 1

/-- `ERR` 2: `IllegalOp`, the opcode is reserved (R52, R170). -/
def errIllegalOp : BitVec 2 := 2

/-- `Y[7:0]` and the byte-valid bit `Y[8]` of `A4E.PUSH` and `A4E.FLUSH` when a byte is emitted (R91, R92). -/
def byteEmitted (b : Byte) : Word := setField (setField yZero 0 b) 8 (1 : Bit)

/-- `Y[7:0] = 0` and `Y[8] = 0`: no byte this time (R91, R92). -/
def noByteEmitted : Word := yZero

end Sys2Proof.Machine
end

