-- ==== Sys2Proof/Machine/Ops.lean ====
section
/-! DEFINITION. The named operations over the state: writing one unit's registers, completing a command, raising an error
(the core's only exception mechanism, 00_scope.md R15), and what a step does where there is no instruction to run. The core
has no memory (20_memory.md R40), so there is no operation over one. -/

namespace Sys2Proof.Machine

/-- Write A4D's registers. -/
def State.withA4d (s : State) (r : A4dRegs) : State := { s with a4d := r }

/-- Write A4E's registers. -/
def State.withA4e (s : State) (r : A4eRegs) : State := { s with a4e := r }

/-- Write S2D's registers. -/
def State.withS2d (s : State) (r : S2dRegs) : State := { s with s2d := r }

/-- Write S2E's registers. -/
def State.withS2e (s : State) (r : S2eRegs) : State := { s with s2e := r }

/-- What the outside has presented and the core has not taken. -/
def State.withPort (s : State) (p : List Input) : State := { s with port := p }

/-- Put a response on the response bus, or take the last one off it. -/
def State.withRsp (s : State) (r : Option Response) : State := { s with rsp := r }

/-- A command that does not raise ends with `ERR <- 0` and its result on `Y` (R15). -/
def complete (y : Word) (s : State) : Result := .next (s.withRsp (some ⟨y, errOk⟩))

/-- TAKING AN EXCEPTION (R15, R173): the command ends at once with its error code in `ERR`, `Y <- 0` and no register written;
it "does not transfer control anywhere, saves no state, changes no mode and masks nothing". There is no return from it
(R174). Every meaning calls it with the state it was given. -/
def raise (err : BitVec 2) (s : State) : Result := .next (s.withRsp (some ⟨0, err⟩))

/-- `raise InvalidArgument` (R15, R171). -/
def raiseInvalidArgument (s : State) : Result := raise errInvalidArgument s

/-- `raise IllegalOp`: what a command with a reserved opcode does (R15, R55). -/
def raiseIllegalOp (s : State) : Result := raise errIllegalOp s

/-- Nothing is presented: "Between commands the core is idle and keeps all its state" (R180); the last response is not
retained (R32). Log 2. -/
def idle (s : State) : Result := .next (s.withRsp none)

/-- The reset input (R185): every register of every unit takes R34's value, whatever it held. What the outside presents after
the reset stays presented ("After reset the core accepts commands at once"), and there is no response. Log 11. -/
def resetRegisters (s : State) : Result := .next (State.reset.withPort s.port)

/-- The error code of a response, where there is one. -/
def State.err? (s : State) : Option (BitVec 2) := s.rsp.map Response.err

/-- The result bus of a response, where there is one. -/
def State.y? (s : State) : Option Word := s.rsp.map Response.y

end Sys2Proof.Machine
end

