-- ==== Sys2Proof/Machine/Clamp.lean ====
section
/-! DEFINITION. The shared saturating clamp and the meanings of the CLU commands (44_clamp.md). CLU has no state (R29). -/

namespace Sys2Proof.Machine

/-- `CLAMP(x, lo, hi)` (R135): the two tests in this order, also where `lo > hi` (log 15). -/
def clamp (x lo hi : Int) : Int :=
  if x < lo then lo else if hi < x then hi else x

/-- `CLAMP16(x)` (R136). -/
def clamp16 (x : Int) : Int := clamp x sampleMin sampleMax

/-- `CLU.CLAMP16 x` (R140). -/
def execCluClamp16 (x : Int) (s : State) : Result := complete (bitsOf 64 (clamp16 x)) s

/-- `CLU.CLAMP x, lo, hi` (R141). -/
def execCluClamp (x lo hi : Int) (s : State) : Result := complete (bitsOf 64 (clamp x lo hi)) s

end Sys2Proof.Machine
end

