-- ==== Sys2Proof/Machine/Adp4.lean ====
section
/-! DEFINITION. The ADP4 functions that decoder and encoder share (40_adp4_decoder.md R70 to R73) and the quantizer
(41_adp4_encoder.md R85). All arithmetic is in ℤ (R11). -/

namespace Sys2Proof.Machine

/-- `ADP4_DIFF(step, n)` (R71): each shift is applied to `step` itself. -/
def adp4Diff (step : Nat) (n : Nibble) : Int :=
  let d : Nat := (step >>> 3)
    + (if n.getLsbD 2 then step else 0)
    + (if n.getLsbD 1 then step >>> 1 else 0)
    + (if n.getLsbD 0 then step >>> 2 else 0)
  if n.getLsbD 3 then -(d : Int) else (d : Int)

/-- `ADP4_NEXT_IDX(i, n)` (R72), the sum formed in ℤ. -/
def adp4NextIdx (i : Nat) (n : Nibble) : Nat := (clamp ((i : Int) + indexDeltaOf n) 0 adp4IdxMax).toNat

/-- `ADP4_UPDATE((p, i), n)` (R73): the one state transition of ADP4. The step size is the one before the update. -/
def adp4Update (st : Int × Nat) (n : Nibble) : Int × Nat :=
  (clamp16 (st.1 + adp4Diff (stepSize st.2) n), adp4NextIdx st.2 n)

/-- The quantizer's loop variables (R85): the code built so far, the magnitude left, the threshold. -/
structure QuantLoop where
  code : Nibble
  mag : Nat
  t : Nat
deriving DecidableEq, Repr

/-- One pass of R85's loop, for bit `k`. -/
def adp4QuantPass (v : QuantLoop) (k : Nat) : QuantLoop :=
  if v.t ≤ v.mag then ⟨v.code ||| (1#4 <<< k), v.mag - v.t, v.t >>> 1⟩ else ⟨v.code, v.mag, v.t >>> 1⟩

/-- `ADP4_QUANT((p, i), x)` (R85): the difference saturates before it is quantized, bit 2 first. -/
def adp4Quant (st : Int × Nat) (x : Int) : Nibble :=
  let diff := clamp16 (x - st.1)
  let v := [2, 1, 0].foldl adp4QuantPass ⟨0, diff.natAbs, stepSize st.2⟩
  (if diff < 0 then 8#4 else 0#4) ||| v.code

end Sys2Proof.Machine
end

