-- ==== Sys2Proof/Machine/A4d.lean ====
section
/-! DEFINITION. The meanings of the ADP4 decoder's commands (40_adp4_decoder.md R74 to R79). What
they keep and emit (R80) is named in Safety.lean: `A4dRegs.StepAgrees`, `samplesIn`, `emittedSamples`. -/

namespace Sys2Proof.Machine

/-- A4D's state `(A4D.PRED, A4D.IDX)` (R70). -/
def A4dRegs.pair (r : A4dRegs) : Int × Nat := adp4Pair r.pred r.idx

/-- `A4D.PRED <- p; A4D.IDX <- i`, each narrowed to its register (R14). -/
def a4dWrite (st : Int × Nat) : A4dRegs := ⟨bitsOf 16 st.1, BitVec.ofNat 7 st.2⟩

/-- `A4D.INIT` (R74). -/
def execA4dInit (s : State) : Result := complete yZero (s.withA4d (a4dWrite (0, 0)))

/-- `A4D.LOAD p, i` (R75). -/
def execA4dLoad (p : Int) (i : Nat) (s : State) : Result :=
  if adp4IdxMax < i then raiseInvalidArgument s
  else complete yZero (s.withA4d (a4dWrite (p, i)))

/-- `A4D.READ` (R76). -/
def execA4dRead (s : State) : Result :=
  complete (setField (setField (setField yZero 0 s.a4d.pred) 16 s.a4d.idx) 24 (stepField s.a4d.idx)) s

/-- `A4D.SYM n` (R77). -/
def execA4dSym (n : Nibble) (s : State) : Result :=
  let st := adp4Update s.a4d.pair n
  complete (bitsOf 64 st.1) (s.withA4d (a4dWrite st))

/-- `A4D.BYTE b` (R78): high nibble first, the second symbol in the state the first one left. -/
def execA4dByte (b : Byte) (s : State) : Result :=
  let st1 := adp4Update s.a4d.pair (highNibble b)
  let st2 := adp4Update st1 (lowNibble b)
  complete (setField (setField yZero 0 (bitsOf 16 st1.1)) 16 (bitsOf 16 st2.1)) (s.withA4d (a4dWrite st2))

/-- `A4D.HIGH b` (R79): the low nibble has no effect. -/
def execA4dHigh (b : Byte) (s : State) : Result :=
  let st := adp4Update s.a4d.pair (highNibble b)
  complete (bitsOf 64 st.1) (s.withA4d (a4dWrite st))

end Sys2Proof.Machine
end

