-- ==== Sys2Proof/Machine/A4e.lean ====
section
/-! DEFINITION. The meanings of the ADP4 encoder's commands (41_adp4_encoder.md R86 to R92). -/

namespace Sys2Proof.Machine

/-- A4E's state `(A4E.PRED, A4E.IDX)` (R70). -/
def A4eRegs.pair (r : A4eRegs) : Int × Nat := adp4Pair r.pred r.idx

/-- `A4E.PRED <- p; A4E.IDX <- i`, each narrowed to its register (R14); the packer is not touched. -/
def a4eWritePair (r : A4eRegs) (st : Int × Nat) : A4eRegs := { r with pred := bitsOf 16 st.1, idx := BitVec.ofNat 7 st.2 }

/-- `A4E.PHASE <- h; A4E.PEND <- q`; the predictor is not touched. -/
def a4eWritePacker (r : A4eRegs) (h : Bit) (q : Nibble) : A4eRegs := { r with phase := h, pend := q }

/-- The symbol of sample `x` in A4E's state (R85). -/
def a4eSymbol (x : Int) (r : A4eRegs) : Nibble := adp4Quant r.pair x

/-- A4E's state after sample `x`: `ADP4_UPDATE` with the symbol just produced, never the original difference (R86). -/
def a4eAdvance (x : Int) (r : A4eRegs) : Int × Nat := adp4Update r.pair (a4eSymbol x r)

/-- `A4E.INIT` (R87). -/
def execA4eInit (s : State) : Result :=
  complete yZero (s.withA4e (a4eWritePacker (a4eWritePair s.a4e (0, 0)) 0 0))

/-- `A4E.LOAD p, i, c` (R88): `PEND` is 0 where `h` is 0. -/
def execA4eLoad (p : Int) (i : Nat) (q : Nibble) (h : Bit) (s : State) : Result :=
  if adp4IdxMax < i then raiseInvalidArgument s
  else complete yZero (s.withA4e (a4eWritePacker (a4eWritePair s.a4e (p, i)) h (if h = 1 then q else 0)))

/-- `A4E.READ` (R89). -/
def execA4eRead (s : State) : Result :=
  complete
    (setField (setField (setField (setField (setField yZero 0 s.a4e.pred) 16 s.a4e.idx) 24 (stepField s.a4e.idx))
      40 s.a4e.pend) 48 s.a4e.phase) s

/-- `A4E.SYM x` (R90): the packer is not touched. -/
def execA4eSym (x : Int) (s : State) : Result :=
  let n := a4eSymbol x s.a4e
  let st := a4eAdvance x s.a4e
  complete (setField (setField yZero 0 n) 16 (bitsOf 16 st.1)) (s.withA4e (a4eWritePair s.a4e st))

/-- What `A4E.PUSH` puts in the fields it always sets: the symbol in `Y[15:12]`, the new predictor in `Y[31:16]` (R91). -/
def a4ePushReport (y : Word) (n : Nibble) (p : Int) : Word := setField (setField y 12 n) 16 (bitsOf 16 p)

/-- `A4E.PUSH x` (R91): the first sample of a pair becomes the pending high nibble, the second completes the byte. -/
def execA4ePush (x : Int) (s : State) : Result :=
  let n := a4eSymbol x s.a4e
  let st := a4eAdvance x s.a4e
  let r := a4eWritePair s.a4e st
  if s.a4e.phase = 0 then
    complete (a4ePushReport noByteEmitted n st.1) (s.withA4e (a4eWritePacker r 1 n))
  else
    complete (a4ePushReport (byteEmitted (s.a4e.pend ++ n)) n st.1) (s.withA4e (a4eWritePacker r 0 0))

/-- `A4E.FLUSH` (R92): the low nibble of the flushed byte is 0 (log 14). -/
def execA4eFlush (s : State) : Result :=
  if s.a4e.phase = 1 then complete (byteEmitted (s.a4e.pend ++ 0#4)) (s.withA4e (a4eWritePacker s.a4e 0 0))
  else complete noByteEmitted s

end Sys2Proof.Machine
end

