-- ==== Sys2Proof/Machine/Sdx2.lean ====
section
/-! DEFINITION. The SDX2 functions: reconstruction (42_sdx2_decoder.md R101 to R104) and the encoder's code choice
(43_sdx2_encoder.md R115 to R122). All arithmetic is in ℤ (R11). -/

namespace Sys2Proof.Machine

/-- `SQ(m)` (R101). -/
def sdx2Sq (m : Int) : Int := 2 * m * (m.natAbs : Int)

/-- `MODE(b)` (R102): true is delta mode. -/
def sdx2Mode (b : Byte) : Bool := b.getLsbD 0

/-- `MVAL(b)` (R103). -/
def mval (b : Byte) : Int := (b &&& 0xFE#8).toInt

/-- `SDX2_RECON(b, prev)` (R104). -/
def sdx2Recon (b : Byte) (prev : Int) : Int :=
  if sdx2Mode b then clamp16 (prev + sdx2Sq (mval b)) else clamp16 (sdx2Sq (mval b))

/-- Climb from `k` while `k + 1` still satisfies R115's test `2*k*k - 2*k < x`, at most `fuel` times. -/
def rsqClimb (x : Nat) : Nat → Nat → Nat
  | 0, k => k
  | fuel + 1, k => if 2 * (k + 1) * (k + 1) - 2 * (k + 1) < x then rsqClimb x fuel (k + 1) else k

/-- "the largest integer k >= 0 such that k == 0 or 2*k*k - 2*k < x" (R115); no such k is above `x`. -/
def roundRootHalf (x : Nat) : Nat := rsqClimb x x 0

/-- `RSQ(x)` (R115), or the alternative reading I12 names; log 16. -/
def rsq (x : Nat) : Nat :=
  match rsqReading with
  | .exact => roundRootHalf x
  | .floorHalf => roundRootHalf (2 * (x / 2))

/-- `SCODE(v)` (R116). -/
def scode (v : Int) : Int := if v < 0 then -(rsq v.natAbs : Int) else (rsq v.natAbs : Int)

/-- `CODE8(v)` (R116), or the alternative I13 names; log 16. -/
def code8 (v : Int) : Int :=
  match codeOverflow with
  | .clamp => clamp (scode v) (-128) 127
  | .wrap => (bitsOf 8 (scode v)).toInt

/-- `EXACT_CODE(v)` (R117). -/
def exactCode (v : Int) : Byte := bitsOf 8 (code8 v) &&& 0xFE#8

/-- `DELTA_CODE(v)` (R118). -/
def deltaCode (v : Int) : Byte := bitsOf 8 (code8 v) ||| 0x01#8

/-- `SDX2_ERR(x, b, prev)` (R119). -/
def sdx2Err (x : Int) (b : Byte) (prev : Int) : Nat := (x - sdx2Recon b prev).natAbs

/-- One pass of R120's loop, for the neighbour `delta` away from `b`: a neighbour outside the signed byte is no candidate, and
only a strictly smaller error replaces the best. -/
def sdx2SearchPass (b : Byte) (x prev : Int) (best : Byte × Nat) (delta : Int) : Byte × Nat :=
  let v := b.toInt + delta
  if -128 ≤ v ∧ v ≤ 127 then
    if sdx2Err x (bitsOf 8 v) prev < best.2 then (bitsOf 8 v, sdx2Err x (bitsOf 8 v) prev) else best
  else best

/-- `SDX2_SEARCH(b, x, prev)` (R120): `b`, then `b + 2`, then `b - 2`. -/
def sdx2Search (b : Byte) (x prev : Int) : Byte × Nat :=
  [sdx2SearchStep, -sdx2SearchStep].foldl (sdx2SearchPass b x prev) (b, sdx2Err x b prev)

/-- `SDX2_GUARD(dc, prev)` (R121): the unclamped reconstruction is tested, once. -/
def sdx2Guard (dc : Byte) (prev : Int) : Byte :=
  let m := mval dc
  if sdx2GuardLimit < (prev + sdx2Sq m).natAbs then
    if 0 < m then bitsOf 8 (dc.toInt - sdx2SearchStep)
    else if m < 0 then bitsOf 8 (dc.toInt + sdx2SearchStep)
    else dc
  else dc

/-- `SDX2_ENC(x, prev, started)` (R122). -/
def sdx2Enc (x prev : Int) (started : Bit) : Byte :=
  if started = 0 then exactCode x
  else
    let e := sdx2Search (exactCode x) x prev
    let d := x - prev
    if 32767 < d.natAbs then e.1
    else
      let dd := sdx2Search (sdx2Guard (deltaCode d) prev) x prev
      if dd.2 < e.2 then dd.1 else e.1

end Sys2Proof.Machine
end

