-- ==== Sys2Proof/Machine/S2d.lean ====
section
/-! DEFINITION. The meanings of the SDX2 decoder's commands (42_sdx2_decoder.md R105 to R108). -/

namespace Sys2Proof.Machine

/-- `S2D.PREV[c]` as an integer (R14, R27). -/
def S2dRegs.prev (r : S2dRegs) (c : Bit) : Int := (channelGet c r.prev0 r.prev1).toInt

/-- `S2D.PREV[c] <- p; S2D.CH <- q`. -/
def s2dWrite (r : S2dRegs) (c : Bit) (p : Int) (q : Bit) : S2dRegs :=
  { r with ch := q, prev0 := channelSet0 c (bitsOf 16 p) r.prev0, prev1 := channelSet1 c (bitsOf 16 p) r.prev1 }

/-- `S2D.INIT k` (R105). -/
def execS2dInit (k : Nat) (s : State) : Result :=
  if legalChannelCount k then complete yZero (s.withS2d ⟨BitVec.ofNat 2 k, 0, 0, 0⟩)
  else raiseInvalidArgument s

/-- `S2D.LOAD p, c, q` (R106). -/
def execS2dLoad (p : Int) (c q : Bit) (s : State) : Result :=
  if missingChannel c s.s2d.nch || missingChannel q s.s2d.nch then raiseInvalidArgument s
  else complete yZero (s.withS2d (s2dWrite s.s2d c p q))

/-- `S2D.READ` (R107). -/
def execS2dRead (s : State) : Result :=
  complete (setField (setField (setField (setField yZero 0 s.s2d.prev0) 16 s.s2d.prev1) 40 s.s2d.ch) 48 s.s2d.nch) s

/-- `S2D.BYTE b` (R108). -/
def execS2dByte (b : Byte) (s : State) : Result :=
  let c := s.s2d.ch
  let r := sdx2Recon b (s.s2d.prev c)
  complete (bitsOf 64 r) (s.withS2d (s2dWrite s.s2d c r (nextChannel c s.s2d.nch)))

end Sys2Proof.Machine
end

