-- ==== Sys2Proof/Machine/S2e.lean ====
section
/-! DEFINITION. The meanings of the SDX2 encoder's commands (43_sdx2_encoder.md R123 to R126). -/

namespace Sys2Proof.Machine

/-- `S2E.PREV[c]` as an integer (R14, R28). -/
def S2eRegs.prev (r : S2eRegs) (c : Bit) : Int := (channelGet c r.prev0 r.prev1).toInt

/-- `S2E.STARTED[c]` (R28). -/
def S2eRegs.started (r : S2eRegs) (c : Bit) : Bit := channelGet c r.started0 r.started1

/-- `S2E.PREV[c] <- p; S2E.STARTED[c] <- f; S2E.CH <- q`. -/
def s2eWrite (r : S2eRegs) (c : Bit) (p : Int) (f q : Bit) : S2eRegs :=
  { r with
    ch := q
    prev0 := channelSet0 c (bitsOf 16 p) r.prev0
    prev1 := channelSet1 c (bitsOf 16 p) r.prev1
    started0 := channelSet0 c f r.started0
    started1 := channelSet1 c f r.started1 }

/-- `S2E.INIT k` (R123). -/
def execS2eInit (k : Nat) (s : State) : Result :=
  if legalChannelCount k then complete yZero (s.withS2e ⟨BitVec.ofNat 2 k, 0, 0, 0, 0, 0⟩)
  else raiseInvalidArgument s

/-- `S2E.LOAD p, c, q` with `f = C[8]` (R124). -/
def execS2eLoad (p : Int) (c q f : Bit) (s : State) : Result :=
  if missingChannel c s.s2e.nch || missingChannel q s.s2e.nch then raiseInvalidArgument s
  else complete yZero (s.withS2e (s2eWrite s.s2e c p f q))

/-- `S2E.READ` (R125). -/
def execS2eRead (s : State) : Result :=
  complete
    (setField (setField (setField (setField (setField (setField yZero 0 s.s2e.prev0) 16 s.s2e.prev1) 32 s.s2e.started0)
      33 s.s2e.started1) 40 s.s2e.ch) 48 s.s2e.nch) s

/-- `S2E.SAMPLE x` (R126): the new previous sample is the decoded value of the emitted code, not `x`. -/
def execS2eSample (x : Int) (s : State) : Result :=
  let c := s.s2e.ch
  let b := sdx2Enc x (s.s2e.prev c) (s.s2e.started c)
  let r := sdx2Recon b (s.s2e.prev c)
  complete (setField (setField (setField yZero 0 b) 16 (bitsOf 16 r)) 40 c)
    (s.withS2e (s2eWrite s.s2e c r 1 (nextChannel c s.s2e.nch)))

end Sys2Proof.Machine
end

