-- ==== Sys2Proof/Machine/Dispatch.lean ====
section
/-! DEFINITION. One arm per instruction: each calls the instruction's meaning. -/

namespace Sys2Proof.Machine

def exec (i : Instr) (s : State) : Host.Outcome State Fault Refusal :=
  match i with
  | .cluClamp16 x => Sys2Proof.Machine.execCluClamp16 x s
  | .cluClamp x lo hi => Sys2Proof.Machine.execCluClamp x lo hi s
  | .a4dInit => Sys2Proof.Machine.execA4dInit s
  | .a4dLoad p idx => Sys2Proof.Machine.execA4dLoad p idx s
  | .a4dRead => Sys2Proof.Machine.execA4dRead s
  | .a4dSym n => Sys2Proof.Machine.execA4dSym n s
  | .a4dByte b => Sys2Proof.Machine.execA4dByte b s
  | .a4dHigh b => Sys2Proof.Machine.execA4dHigh b s
  | .a4eInit => Sys2Proof.Machine.execA4eInit s
  | .a4eLoad p idx q h => Sys2Proof.Machine.execA4eLoad p idx q h s
  | .a4eRead => Sys2Proof.Machine.execA4eRead s
  | .a4eSym x => Sys2Proof.Machine.execA4eSym x s
  | .a4ePush x => Sys2Proof.Machine.execA4ePush x s
  | .a4eFlush => Sys2Proof.Machine.execA4eFlush s
  | .s2dInit k => Sys2Proof.Machine.execS2dInit k s
  | .s2dLoad p c q => Sys2Proof.Machine.execS2dLoad p c q s
  | .s2dRead => Sys2Proof.Machine.execS2dRead s
  | .s2dByte b => Sys2Proof.Machine.execS2dByte b s
  | .s2eInit k => Sys2Proof.Machine.execS2eInit k s
  | .s2eLoad p c q f => Sys2Proof.Machine.execS2eLoad p c q f s
  | .s2eRead => Sys2Proof.Machine.execS2eRead s
  | .s2eSample x => Sys2Proof.Machine.execS2eSample x s

end Sys2Proof.Machine
end

