-- ==== Sys2Proof/Machine/Run.lean ====
section
/-! DEFINITION. Running one command that has been taken from the port (20_memory.md R45). -/

namespace Sys2Proof.Machine

/-- One command, from presentation to response (R45): the opcode check comes first (R172), and a reserved opcode raises
`IllegalOp` (R55). -/
def runCommand (k : Command) (s : State) : Result :=
  match decode k with
  | .ok i => exec i s
  | .error _ => raiseIllegalOp s

end Sys2Proof.Machine
end

