-- ==== Sys2Proof/Machine/Step.lean ====
section
/-! DEFINITION. One step: take the oldest input presented to the core and do what it asks (20_memory.md R45, R47). -/

namespace Sys2Proof.Machine

/-- One step of the core. -/
def step (s : State) : Host.Outcome State Fault Refusal :=
  match s.port with
  | [] => idle s
  | .command k :: rest => runCommand k (s.withPort rest)
  | .reset :: rest => resetRegisters (s.withPort rest)

/-- `s` with the command of a table word presented on the command port ahead of everything else, so that the very next step
runs it. It stands for the host issuing the command (R50); log 3. -/
def State.withFetchWord (s : State) (nbits w : Nat) : State :=
  s.withPort (.command (commandOfTableWord nbits w) :: s.port)

end Sys2Proof.Machine
end

