-- ==== Sys2Proof/Machine/Streams.lean ====
section
/-! DEFINITION. The buffer-level entry points of 45_streams.md (R150 to R156): procedures the host runs, made only of commands,
as functions over the step relation. They add no state to the core. -/

namespace Sys2Proof.Machine

/-- The state with a command presented ahead of everything else. -/
def State.present (s : State) (k : Command) : State := s.withPort (.command k :: s.port)

/-- The state and the response an outcome leaves, where it leaves both. -/
def answered (o : Result) : Option (State × Response) :=
  match o with
  | .next t =>
    match t.rsp with
    | some r => some (t, r)
    | none => none
  | .fault _ => none
  | .refused _ => none

/-- `issue <command>` (R151 to R154): present the command, let the core take one step, read the response. -/
def issue (i : Instr) (s : State) : Option (State × Response) := answered (step (s.present (encode i)))

/-- What a stream procedure ends with. -/
inductive StreamResult (α : Type) where
  /-- the output sequence, and the state the core is left in -/
  | done (out : List α) (s : State)
  /-- `fail InvalidArgument` (R156), and the state the core is left in -/
  | invalidArgument (s : State)
  /-- a command left no response; the model's core always answers (log 17) -/
  | stopped
deriving DecidableEq, Repr

/-- A sample field of a response: `sext_16(Y[lo + 15 : lo])` (R151, R153). -/
def sampleAt (r : Response) (lo : Nat) : Int := (bitField r.y lo 16).toInt

/-- The byte field of a response, `Y[7:0]` (R152, R154). -/
def byteOf (r : Response) : Byte := bitField r.y 0 8

/-- `Y[8] = 1`: the response carries a byte (R152). -/
def byteValid (r : Response) : Bool := bitField r.y 8 1 == 1#1

/-- `ceil(n / 2)` (R18). -/
def halfUp (n : Nat) : Nat := (n + 1) / 2

/-- The loop of `ADP4_DECODE` (R151): `count` samples still to decode, from the bytes still to read. -/
def adp4DecodeLoop (count : Nat) (bytes : List Byte) (out : List Int) (s : State) : StreamResult Int :=
  match bytes with
  | [] => if count = 0 then .done out s else .stopped
  | b :: rest =>
    if count = 0 then .done out s
    else if count = 1 then
      match issue (.a4dHigh b) s with
      | some (t, r) => .done (out ++ [sampleAt r 0]) t
      | none => .stopped
    else
      match issue (.a4dByte b) s with
      | some (t, r) => adp4DecodeLoop (count - 2) rest (out ++ [sampleAt r 0, sampleAt r 16]) t
      | none => .stopped

/-- `ADP4_DECODE(bytes, count, cap)`, continue form (R151, R156). -/
def adp4Decode (bytes : List Byte) (count cap : Nat) (s : State) : StreamResult Int :=
  if bytes.length < halfUp count ∨ cap < count then .invalidArgument s
  else adp4DecodeLoop count bytes [] s

/-- `n_out` of R152: how many bytes `ADP4_ENCODE` emits. -/
def adp4EncodeLength (phase : Bit) (len : Nat) (eos : Bool) : Nat :=
  (phase.toNat + len) / 2 + (if eos && (phase.toNat + len) % 2 == 1 then 1 else 0)

/-- The end of `ADP4_ENCODE` (R152): flush where the stream ends. -/
def adp4EncodeEnd (eos : Bool) (out : List Byte) (s : State) : StreamResult Byte :=
  if eos then
    match issue .a4eFlush s with
    | some (t, r) => .done (if byteValid r then out ++ [byteOf r] else out) t
    | none => .stopped
  else .done out s

/-- The loop of `ADP4_ENCODE` (R152). -/
def adp4EncodeLoop (eos : Bool) (samples : List Int) (out : List Byte) (s : State) : StreamResult Byte :=
  match samples with
  | [] => adp4EncodeEnd eos out s
  | x :: rest =>
    match issue (.a4ePush x) s with
    | some (t, r) => adp4EncodeLoop eos rest (if byteValid r then out ++ [byteOf r] else out) t
    | none => .stopped

/-- `ADP4_ENCODE(samples, eos, cap)`, continue form (R152, R156). The host's reading of `A4E.PHASE` is taken from the
register, with no command issued before the check (R156); log 17. -/
def adp4Encode (samples : List Int) (eos : Bool) (cap : Nat) (s : State) : StreamResult Byte :=
  if cap < adp4EncodeLength s.a4e.phase samples.length eos then .invalidArgument s
  else adp4EncodeLoop eos samples [] s

/-- The loop of `SDX2_DECODE` (R153). -/
def sdx2DecodeLoop (bytes : List Byte) (out : List Int) (s : State) : StreamResult Int :=
  match bytes with
  | [] => .done out s
  | b :: rest =>
    match issue (.s2dByte b) s with
    | some (t, r) => sdx2DecodeLoop rest (out ++ [sampleAt r 0]) t
    | none => .stopped

/-- `SDX2_DECODE(bytes, cap)`, continue form (R153, R156). -/
def sdx2Decode (bytes : List Byte) (cap : Nat) (s : State) : StreamResult Int :=
  if cap < bytes.length then .invalidArgument s else sdx2DecodeLoop bytes [] s

/-- The loop of `SDX2_ENCODE` (R154). -/
def sdx2EncodeLoop (samples : List Int) (out : List Byte) (s : State) : StreamResult Byte :=
  match samples with
  | [] => .done out s
  | x :: rest =>
    match issue (.s2eSample x) s with
    | some (t, r) => sdx2EncodeLoop rest (out ++ [byteOf r]) t
    | none => .stopped

/-- `SDX2_ENCODE(samples, cap)`, continue form (R154, R156). -/
def sdx2Encode (samples : List Int) (cap : Nat) (s : State) : StreamResult Byte :=
  if cap < samples.length then .invalidArgument s else sdx2EncodeLoop samples [] s

/-- A fresh form (R155): issue the unit's `INIT`, which may fail with `InvalidArgument`, then run the continue form. -/
def freshStream {α : Type} (init : Instr) (proc : State → StreamResult α) (s : State) : StreamResult α :=
  match issue init s with
  | some (t, r) => if r.err = errOk then proc t else .invalidArgument t
  | none => .stopped

/-- ADPCM `Decode(input, sample_count)` (R155). -/
def adp4DecodeFresh (bytes : List Byte) (count cap : Nat) (s : State) : StreamResult Int :=
  freshStream .a4dInit (adp4Decode bytes count cap) s

/-- ADPCM `Encode(input)` (R155). -/
def adp4EncodeFresh (samples : List Int) (cap : Nat) (s : State) : StreamResult Byte :=
  freshStream .a4eInit (adp4Encode samples true cap) s

/-- SDX2 `Decode(input, channel_count)` (R155). -/
def sdx2DecodeFresh (bytes : List Byte) (channels cap : Nat) (s : State) : StreamResult Int :=
  freshStream (.s2dInit channels) (sdx2Decode bytes cap) s

/-- SDX2 `Encode(input, channel_count)` (R155). -/
def sdx2EncodeFresh (samples : List Int) (channels cap : Nat) (s : State) : StreamResult Byte :=
  freshStream (.s2eInit channels) (sdx2Encode samples cap) s

end Sys2Proof.Machine
end

