-- ==== Sys2Proof/Safety.lean ====
section
/-! DEFINITION. The terms claims are stated in: which states are legal (10_state.md R30), which unit a command names (R54), when
a command is rejected (60_exceptions.md R171). Each is written from the rule it cites and calls no meaning. -/

namespace Sys2Proof.Machine

/-- An `int16` (R13). -/
abbrev isInt16 (z : Int) : Prop := -32768 ≤ z ∧ z ≤ 32767

/-- R30 for A4D: the step index is in `[0, 88]`, the predictor is an `int16`. -/
abbrev A4dRegs.Legal (r : A4dRegs) : Prop := r.idx.toNat ≤ 88 ∧ isInt16 r.pred.toInt

/-- R30 for A4E. -/
abbrev A4eRegs.Legal (r : A4eRegs) : Prop := r.idx.toNat ≤ 88 ∧ isInt16 r.pred.toInt

/-- R30 for S2D: `NCH` is 1 or 2, `CH < NCH`, the previous samples are `int16`. -/
abbrev S2dRegs.Legal (r : S2dRegs) : Prop :=
  (r.nch.toNat = 1 ∨ r.nch.toNat = 2) ∧ r.ch.toNat < r.nch.toNat ∧ isInt16 r.prev0.toInt ∧ isInt16 r.prev1.toInt

/-- R30 for S2E. -/
abbrev S2eRegs.Legal (r : S2eRegs) : Prop :=
  (r.nch.toNat = 1 ∨ r.nch.toNat = 2) ∧ r.ch.toNat < r.nch.toNat ∧ isInt16 r.prev0.toInt ∧ isInt16 r.prev1.toInt

/-- R30: what holds of the registers at every command boundary. (`STEP = STEP_TABLE[IDX]` holds because `STEP` is derived,
R22.) -/
abbrev State.Legal (s : State) : Prop := s.a4d.Legal ∧ s.a4e.Legal ∧ s.s2d.Legal ∧ s.s2e.Legal

/-- Decision D10: `PEND` is 0 whenever `PHASE` is 0. -/
abbrev State.PackerTidy (s : State) : Prop := s.a4e.phase = 0 → s.a4e.pend = 0

/-- A stream of one channel leaves the second channel's registers as `INIT` set them (R27 "unused when `S2D.NCH = 1`", R106,
R124). -/
abbrev State.MonoTidy (s : State) : Prop :=
  (s.s2d.nch.toNat = 1 → s.s2d.prev1 = 0) ∧ (s.s2e.nch.toNat = 1 → s.s2e.prev1 = 0 ∧ s.s2e.started1 = 0)

/-- R52: `ERR` is never 3, and where it is not 0, `Y` is 0. -/
abbrev Response.Legal (r : Response) : Prop := r.err.toNat ≠ 3 ∧ (r.err.toNat ≠ 0 → r.y = 0)

/-- R52 for the response a step left, where it left one. -/
abbrev State.ResponseLegal (s : State) : Prop := ∀ r ∈ s.rsp, r.Legal

/-- The five units (R1). -/
inductive Unit5 where
  | clu
  | a4d
  | a4e
  | s2d
  | s2e
deriving DecidableEq, Repr

/-- The unit an instruction's opcode names (R53, R54). -/
def unitOf : Instr → Unit5
  | .cluClamp16 _ => .clu
  | .cluClamp _ _ _ => .clu
  | .a4dInit => .a4d
  | .a4dLoad _ _ => .a4d
  | .a4dRead => .a4d
  | .a4dSym _ => .a4d
  | .a4dByte _ => .a4d
  | .a4dHigh _ => .a4d
  | .a4eInit => .a4e
  | .a4eLoad _ _ _ _ => .a4e
  | .a4eRead => .a4e
  | .a4eSym _ => .a4e
  | .a4ePush _ => .a4e
  | .a4eFlush => .a4e
  | .s2dInit _ => .s2d
  | .s2dLoad _ _ _ => .s2d
  | .s2dRead => .s2d
  | .s2dByte _ => .s2d
  | .s2eInit _ => .s2e
  | .s2eLoad _ _ _ _ => .s2e
  | .s2eRead => .s2e
  | .s2eSample _ => .s2e

/-- Two states have the same registers in a unit (CLU has none, R29). -/
def sameUnit (u : Unit5) (s t : State) : Prop :=
  match u with
  | .clu => True
  | .a4d => s.a4d = t.a4d
  | .a4e => s.a4e = t.a4e
  | .s2d => s.s2d = t.s2d
  | .s2e => s.s2e = t.s2e

/-- Two states have the same registers in every unit. -/
abbrev sameRegisters (s t : State) : Prop := s.a4d = t.a4d ∧ s.a4e = t.a4e ∧ s.s2d = t.s2d ∧ s.s2e = t.s2e

/-- The commands that can raise `InvalidArgument`, and exactly when: the table of R171. -/
def rejects (i : Instr) (s : State) : Prop :=
  match i with
  | .a4dLoad _ idx => 88 < idx
  | .a4eLoad _ idx _ _ => 88 < idx
  | .s2dInit k => k ≠ 1 ∧ k ≠ 2
  | .s2eInit k => k ≠ 1 ∧ k ≠ 2
  | .s2dLoad _ c q => s.s2d.nch.toNat ≤ c.toNat ∨ s.s2d.nch.toNat ≤ q.toNat
  | .s2eLoad _ c q _ => s.s2e.nch.toNat ≤ c.toNat ∨ s.s2e.nch.toNat ≤ q.toNat
  | .cluClamp16 _ | .cluClamp _ _ _ => False
  | .a4dInit | .a4dRead | .a4dSym _ | .a4dByte _ | .a4dHigh _ => False
  | .a4eInit | .a4eRead | .a4eSym _ | .a4ePush _ | .a4eFlush => False
  | .s2dRead | .s2dByte _ => False
  | .s2eRead | .s2eSample _ => False

/-- The encoding line and the operand line of a command's rule: a command with that opcode stands for the instruction `f` makes
of its operand buses, whatever the bits `f` does not read (R51, R54, R62). -/
def decodesTo (op : Opcode) (f : Word → Word → Word → Instr) : Prop := ∀ a b c : Word, decode ⟨op, a, b, c⟩ = .ok (f a b c)

/-- The opcodes of R54, in the table's order. -/
def listedOpcodes : List Opcode :=
  [0x10, 0x11] ++ [0x20, 0x21, 0x22, 0x23, 0x24, 0x25] ++ [0x30, 0x31, 0x32, 0x33, 0x34, 0x35] ++
  [0x40, 0x41, 0x42, 0x43] ++ [0x50, 0x51, 0x52, 0x53]

/-- `t` has what `s` had in every unit but `u`, and the same inputs still presented. -/
def onlyUnit (u : Unit5) (s t : State) : Prop := t.port = s.port ∧ ∀ v, v ≠ u → sameUnit v s t

/-- The states the core passes through when instructions run one after another: the state after each. -/
def execTrace : List Instr → State → List State
  | [], _ => []
  | i :: rest, s =>
    match exec i s with
    | .next t => t :: execTrace rest t
    | .fault _ => []
    | .refused _ => []

/-- The result bus of the response in a state, as a signed value. -/
def State.ySigned? (s : State) : Option Int := s.rsp.map (fun r => r.y.toInt)

/-- The field `Y[lo + w - 1 : lo]` of the response in a state. -/
def State.yField? (s : State) (lo w : Nat) : Option (BitVec w) := s.rsp.map (fun r => r.y.extractLsb' lo w)

/-- R80 (a): the step index is in `[0, 88]` and `STEP`, as `A4D.READ` reports it, is the table's entry there (R21, R22). -/
abbrev A4dRegs.StepAgrees (r : A4dRegs) : Prop :=
  r.idx.toNat ≤ 88 ∧ stepTable[r.idx.toNat]? = some (stepField r.idx).toNat

/-- The samples a command emits in its response, earliest first: one for `A4D.SYM` and `A4D.HIGH`, two for `A4D.BYTE` (R77 to
R79); no other command is an ADP4 decoding. -/
def samplesIn (i : Instr) (r : Response) : List Int :=
  match i with
  | .a4dSym _ | .a4dHigh _ => [r.y.toInt]
  | .a4dByte _ => [sampleAt r 0, sampleAt r 16]
  | .a4dInit | .a4dLoad _ _ | .a4dRead => []
  | .cluClamp16 _ | .cluClamp _ _ _ => []
  | .a4eInit | .a4eLoad _ _ _ _ | .a4eRead | .a4eSym _ | .a4ePush _ | .a4eFlush => []
  | .s2dInit _ | .s2dLoad _ _ _ | .s2dRead | .s2dByte _ => []
  | .s2eInit _ | .s2eLoad _ _ _ _ | .s2eRead | .s2eSample _ => []

/-- The samples A4D emits while instructions run one after another (R80 (b), (c)). -/
def emittedSamples : List Instr → State → List Int
  | [], _ => []
  | i :: rest, s =>
    match exec i s with
    | .next t => t.rsp.toList.flatMap (samplesIn i) ++ emittedSamples rest t
    | .fault _ => []
    | .refused _ => []

/-- One sample coded by `A4E.PUSH` or by `A4E.SYM` (R93). -/
def codeSample (push : Bool) (x : Int) : Instr := if push then .a4ePush x else .a4eSym x

/-- Where that command reports its symbol: `Y[15:12]` or `Y[3:0]` (R62). -/
def symbolOf (push : Bool) (s : State) : Nibble := ((if push then s.yField? 12 4 else s.yField? 0 4)).getD 0

/-- The nibbles of a byte sequence in stream order, the high one of each byte first (R59, R151). -/
def nibblesOf (bytes : List Byte) : List Nibble := bytes.flatMap (fun b => [highNibble b, lowNibble b])

/-- A safe step: it answers a next state, and that state is legal. The core has no step that is not (R173, R30). -/
def SafeStep (s : State) : Prop := ∃ t, step s = .next t ∧ t.Legal

end Sys2Proof.Machine
end

