-- ==== Sys2Proof/Certificates/Slice0/Obligations.lean ====
section
/-! DEFINITION. The statements for the provers. Each docstring names the rule of spec/ it formalises. An obligation that rests
on a choice of the model's own names its log entry. -/

open Sys2Proof Sys2Proof.Machine

/-! ### Encoding (30_encoding.md) -/

/-- Decoding the command that stands for a well-formed instruction gives the instruction back, every operand at every value
its field admits (R13, R50, R62, R63). -/
def Obligations.DecodeEncodeWellFormed : Prop :=
  ∀ i : Instr, i.wellFormed = true → decode (encode i) = .ok i

/-- What the decoder reads is always well formed: each integer operand lies in the range of its field (R13, R62). -/
def Obligations.DecodedIsWellFormed : Prop :=
  ∀ (k : Command) (i : Instr), decode k = .ok i → i.wellFormed = true

/-- Each opcode of R54 gives its instruction, whose operands are exactly the fields R62 names, signed or unsigned as it names
them. Every other bit of `A`, `B`, `C` is free in each clause, so it is ignored (R51). -/
def Obligations.DecodeReadsNamedFields : Prop :=
  ∀ a b c : Word,
    (decode ⟨0x10, a, b, c⟩ = .ok (.cluClamp16 a.toInt)
      ∧ decode ⟨0x11, a, b, c⟩ = .ok (.cluClamp a.toInt b.toInt c.toInt))
    ∧ (decode ⟨0x20, a, b, c⟩ = .ok .a4dInit
      ∧ decode ⟨0x21, a, b, c⟩ = .ok (.a4dLoad (a.setWidth 16).toInt (b.toNat % 256))
      ∧ decode ⟨0x22, a, b, c⟩ = .ok .a4dRead
      ∧ decode ⟨0x23, a, b, c⟩ = .ok (.a4dSym (a.setWidth 4))
      ∧ decode ⟨0x24, a, b, c⟩ = .ok (.a4dByte (a.setWidth 8))
      ∧ decode ⟨0x25, a, b, c⟩ = .ok (.a4dHigh (a.setWidth 8)))
    ∧ (decode ⟨0x30, a, b, c⟩ = .ok .a4eInit
      ∧ decode ⟨0x31, a, b, c⟩
          = .ok (.a4eLoad (a.setWidth 16).toInt (b.toNat % 256) (c.setWidth 4) (BitVec.ofBool (c.getLsbD 8)))
      ∧ decode ⟨0x32, a, b, c⟩ = .ok .a4eRead
      ∧ decode ⟨0x33, a, b, c⟩ = .ok (.a4eSym (a.setWidth 16).toInt)
      ∧ decode ⟨0x34, a, b, c⟩ = .ok (.a4ePush (a.setWidth 16).toInt)
      ∧ decode ⟨0x35, a, b, c⟩ = .ok .a4eFlush)
    ∧ (decode ⟨0x40, a, b, c⟩ = .ok (.s2dInit (a.toNat % 256))
      ∧ decode ⟨0x41, a, b, c⟩
          = .ok (.s2dLoad (a.setWidth 16).toInt (BitVec.ofBool (b.getLsbD 0)) (BitVec.ofBool (c.getLsbD 0)))
      ∧ decode ⟨0x42, a, b, c⟩ = .ok .s2dRead
      ∧ decode ⟨0x43, a, b, c⟩ = .ok (.s2dByte (a.setWidth 8)))
    ∧ (decode ⟨0x50, a, b, c⟩ = .ok (.s2eInit (a.toNat % 256))
      ∧ decode ⟨0x51, a, b, c⟩
          = .ok (.s2eLoad (a.setWidth 16).toInt (BitVec.ofBool (b.getLsbD 0)) (BitVec.ofBool (c.getLsbD 0))
              (BitVec.ofBool (c.getLsbD 8)))
      ∧ decode ⟨0x52, a, b, c⟩ = .ok .s2eRead
      ∧ decode ⟨0x53, a, b, c⟩ = .ok (.s2eSample (a.setWidth 16).toInt))

/-- R55: an opcode outside R54 is reserved; a command with it, whatever its operands, answers `ERR = 2` and `Y = 0`, changes no
register and leaves what the host issues next to be taken next. No listed opcode is reserved, and 234 of the 256 values are. -/
def Obligations.ReservedOpcodeRaisesIllegalOp : Prop :=
  (∀ (k : Command) (s : State) (rest : List Input), k.op ∉ listedOpcodes → s.port = .command k :: rest →
      step s = .next { s with port := rest, rsp := some ⟨0, 2⟩ })
    ∧ (∀ k : Command, (∃ i, decode k = .ok i) ↔ k.op ∈ listedOpcodes)
    ∧ ((List.range 256).filter (fun n => decide (BitVec.ofNat 8 n ∉ listedOpcodes))).length = 234

/-- Sanity: a few words written out from R54, R62 and R63 decode to the instructions they stand for, one of each unit. -/
def Obligations.WordsOfEachUnitDecode : Prop :=
  decode ⟨0x10, 0xFFFFFFFFFFFF63C0, 0, 0⟩ = .ok (.cluClamp16 (-40000))
    ∧ decode ⟨0x21, 0xFFFFFFFFFFFFFFFB, 0x58, 0⟩ = .ok (.a4dLoad (-5) 88)
    ∧ decode ⟨0x34, 0xFFFFFFFFFFFFFC18, 0, 0⟩ = .ok (.a4ePush (-1000))
    ∧ decode ⟨0x40, 0x101, 0, 0⟩ = .ok (.s2dInit 1)
    ∧ decode ⟨0x51, 0x48, 0, 0x100⟩ = .ok (.s2eLoad 72 0 0 1)
    ∧ decodeTableWord 8 0x22 = some .a4dRead
    ∧ decodeTableWord 8 0x00 = none

/-! ### The step (20_memory.md R45, R47; 70_reset_and_hazards.md R185) -/

/-- A step takes the oldest command presented, and where its opcode is listed it runs the instruction the command stands for,
on the state in which that command is no longer presented; in particular the command that stands for a well-formed
instruction runs that instruction, and a table word placed with `withFetchWord` runs as the next instruction (that one is the
model's, log 3). -/
def Obligations.StepRunsDecodedCommand : Prop :=
  (∀ (s : State) (k : Command) (rest : List Input) (i : Instr), s.port = .command k :: rest → decode k = .ok i →
      step s = exec i { s with port := rest })
    ∧ (∀ (s : State) (rest : List Input) (i : Instr), i.wellFormed = true → s.port = .command (encode i) :: rest →
      step s = exec i { s with port := rest })
    ∧ (∀ (s : State) (nbits w : Nat) (i : Instr), decodeTableWord nbits w = some i →
      step (s.withFetchWord nbits w) = exec i s)

/-- The core never stops: from every state a step answers a next state, in which exactly the oldest input has been taken
(R45, R47, R173). None of these rules says it in these words: that no step stops is the model's reading that an error is a
response and nothing else (DEDUCED, log 10), and the port as a list is the model's own field (DESIGN CHOICE, log 1). -/
def Obligations.StepAlwaysAnswersNext : Prop :=
  ∀ s : State, ∃ t, step s = .next t ∧ t.port = s.port.tail

/-- With nothing presented the core keeps every register (R180). That the last response is then gone is the model's choice
(log 2). -/
def Obligations.IdleKeepsEveryRegister : Prop :=
  ∀ s : State, s.port = [] → ∃ t, step s = .next t ∧ sameRegisters s t ∧ t.port = [] ∧ t.rsp = none

/-- R34: the reset value of every register, and it is the state the unit's `INIT` sets, with channel count 1 for the SDX2
units. -/
def Obligations.ResetStateIsInitState : Prop :=
  (State.reset.a4d.pred.toInt = 0 ∧ State.reset.a4d.idx.toNat = 0 ∧ stepSize State.reset.a4d.idx.toNat = 7)
    ∧ (State.reset.a4e.pred.toInt = 0 ∧ State.reset.a4e.idx.toNat = 0 ∧ stepSize State.reset.a4e.idx.toNat = 7
      ∧ State.reset.a4e.phase = 0 ∧ State.reset.a4e.pend = 0)
    ∧ (State.reset.s2d.nch.toNat = 1 ∧ State.reset.s2d.ch = 0 ∧ State.reset.s2d.prev0.toInt = 0
      ∧ State.reset.s2d.prev1.toInt = 0)
    ∧ (State.reset.s2e.nch.toNat = 1 ∧ State.reset.s2e.ch = 0 ∧ State.reset.s2e.prev0.toInt = 0
      ∧ State.reset.s2e.prev1.toInt = 0 ∧ State.reset.s2e.started0 = 0 ∧ State.reset.s2e.started1 = 0)
    ∧ ∀ s : State,
      (∃ t, exec .a4dInit s = .next t ∧ t.a4d = State.reset.a4d)
      ∧ (∃ t, exec .a4eInit s = .next t ∧ t.a4e = State.reset.a4e)
      ∧ (∃ t, exec (.s2dInit 1) s = .next t ∧ t.s2d = State.reset.s2d)
      ∧ (∃ t, exec (.s2eInit 1) s = .next t ∧ t.s2e = State.reset.s2e)

/-- R185: after the reset input every register has its reset value, whatever it held, and the next command presented is the
next one taken. That the reset input is an entry of the port, and that no response is left, is the model's choice (log 11). -/
def Obligations.ResetInputResetsEveryRegister : Prop :=
  ∀ (s : State) (rest : List Input), s.port = .reset :: rest →
    ∃ t, step s = .next t ∧ sameRegisters State.reset t ∧ t.port = rest ∧ t.rsp = none

/-! ### Invariants (10_state.md R30) -/

/-- R30 (which the spec marks as derived): every step from a legal state leads to a legal state, and in it `STEP` is the
table's entry at `IDX` for both ADP4 units. -/
def Obligations.LegalRegistersAreKept : Prop :=
  ∀ s t : State, s.Legal → step s = .next t →
    t.Legal
      ∧ stepTable[t.a4d.idx.toNat]? = some (stepField t.a4d.idx).toNat
      ∧ stepTable[t.a4e.idx.toNat]? = some (stepField t.a4e.idx).toNat

/-- The state after reset meets every invariant stated here. -/
def Obligations.ResetIsLegal : Prop :=
  State.reset.Legal ∧ State.reset.PackerTidy ∧ State.reset.MonoTidy ∧ State.reset.ResponseLegal

/-- Decision D10 and R27, R28, R106, R124: `PEND` is 0 whenever `PHASE` is 0, and a stream of one channel never touches the
second channel's registers. -/
def Obligations.PackerAndMonoStayTidy : Prop :=
  ∀ s t : State, s.Legal → s.PackerTidy → s.MonoTidy → step s = .next t → t.PackerTidy ∧ t.MonoTidy

/-! ### Errors (00_scope.md R15, 60_exceptions.md) -/

/-- R52, R170: the response to every command carries `ERR` 0, 1 or 2; it is 2 exactly for a reserved opcode and 1 exactly where
the instruction rejects an operand; on a non-zero `ERR`, `Y` is 0 and no register changed. -/
def Obligations.ErrorCodesAndNoPartialEffect : Prop :=
  ∀ (s : State) (k : Command) (rest : List Input), s.port = .command k :: rest →
    ∃ (t : State) (r : Response), step s = .next t ∧ t.rsp = some r
      ∧ (r.err.toNat = 0 ∨ r.err.toNat = 1 ∨ r.err.toNat = 2)
      ∧ (r.err.toNat = 2 ↔ k.op ∉ listedOpcodes)
      ∧ (r.err.toNat = 1 ↔ ∃ i, decode k = .ok i ∧ rejects i s)
      ∧ (r.err.toNat ≠ 0 → r.y = 0 ∧ sameRegisters s t)

/-- R171: each instruction raises `InvalidArgument` exactly where the table says, with no effect but the response, and answers
`ERR = 0` everywhere else. -/
def Obligations.InvalidArgumentExactlyWhereListed : Prop :=
  ∀ (i : Instr) (s : State),
    (rejects i s → exec i s = .next { s with rsp := some ⟨0, 1⟩ })
      ∧ (¬ rejects i s → ∃ (t : State) (y : Word), exec i s = .next t ∧ t.rsp = some ⟨y, 0⟩)

/-! ### Units and frames (10_state.md R31, R35) -/

/-- R31: a command writes the registers of its own unit only; what it writes and answers depends on that unit's registers
only; so two commands to different units commute, each with the response it would have had first. -/
def Obligations.UnitsAreIndependent : Prop :=
  (∀ (i : Instr) (s t : State), exec i s = .next t → onlyUnit (unitOf i) s t)
    ∧ (∀ (i : Instr) (s s' t t' : State), sameUnit (unitOf i) s s' → exec i s = .next t → exec i s' = .next t' →
        sameUnit (unitOf i) t t' ∧ t.rsp = t'.rsp)
    ∧ (∀ (i j : Instr) (s si sij sj sji : State), (unitOf i) ≠ (unitOf j) →
        exec i s = .next si → exec j si = .next sij → exec j s = .next sj → exec i sj = .next sji →
        sameRegisters sij sji ∧ si.rsp = sji.rsp ∧ sij.rsp = sj.rsp)

/-- R35, R26, R46: the registers inside the unit that a command leaves alone. `READ` and CLU write none; `A4E.SYM` does not
touch the packer; `A4E.FLUSH` does not touch the predictor; `LOAD`, `BYTE` and `SAMPLE` keep `NCH` and the registers of the
channel they do not name. -/
def Obligations.RegistersACommandLeavesAlone : Prop :=
  (∀ (s t : State) (i : Instr),
      (i = .a4dRead ∨ i = .a4eRead ∨ i = .s2dRead ∨ i = .s2eRead ∨ (∃ x, i = .cluClamp16 x) ∨ ∃ x lo hi, i = .cluClamp x lo hi) →
      exec i s = .next t → sameRegisters s t ∧ t.port = s.port)
    ∧ (∀ (s t : State) (x : Int), exec (.a4eSym x) s = .next t → t.a4e.phase = s.a4e.phase ∧ t.a4e.pend = s.a4e.pend)
    ∧ (∀ s t : State, exec .a4eFlush s = .next t → t.a4e.pred = s.a4e.pred ∧ t.a4e.idx = s.a4e.idx)
    ∧ (∀ (s t : State) (p : Int) (c q : Bit), exec (.s2dLoad p c q) s = .next t →
        t.s2d.nch = s.s2d.nch ∧ ∀ d, d ≠ c → t.s2d.prev d = s.s2d.prev d)
    ∧ (∀ (s t : State) (b : Byte), exec (.s2dByte b) s = .next t →
        t.s2d.nch = s.s2d.nch ∧ ∀ d, d ≠ s.s2d.ch → t.s2d.prev d = s.s2d.prev d)
    ∧ (∀ (s t : State) (p : Int) (c q f : Bit), exec (.s2eLoad p c q f) s = .next t →
        t.s2e.nch = s.s2e.nch ∧ ∀ d, d ≠ c → t.s2e.prev d = s.s2e.prev d ∧ t.s2e.started d = s.s2e.started d)
    ∧ (∀ (s t : State) (x : Int), exec (.s2eSample x) s = .next t →
        t.s2e.nch = s.s2e.nch
          ∧ ∀ d, d ≠ s.s2e.ch → t.s2e.prev d = s.s2e.prev d ∧ t.s2e.started d = s.s2e.started d)

/-! ### The clamp unit (44_clamp.md) -/

/-- R140: `CLU.CLAMP16` answers the clamped value, sign-extended to 64 bits, and touches no register. -/
def Obligations.CluClampSixteen : Prop :=
  decodesTo 0x10 (fun a _ _ => .cluClamp16 a.toInt)
    ∧ ∀ (x : Int) (s : State), ∃ y : Word,
    exec (.cluClamp16 x) s = .next { s with rsp := some ⟨y, 0⟩ } ∧ y.toInt = max (-32768) (min x 32767)

/-- R141: `CLU.CLAMP` answers the value clamped into the bounds, one of its three operands; where the bounds are
crossed it answers `lo` below `lo` and `hi` otherwise, with no error. -/
def Obligations.CluClampArbitraryBounds : Prop :=
  decodesTo 0x11 (fun a b c => .cluClamp a.toInt b.toInt c.toInt)
    ∧ ∀ (x lo hi : Int) (s : State), (Instr.cluClamp x lo hi).wellFormed = true →
    ∃ y : Word, exec (.cluClamp x lo hi) s = .next { s with rsp := some ⟨y, 0⟩ }
      ∧ (lo ≤ hi → y.toInt = min (max x lo) hi)
      ∧ (hi < lo → y.toInt = if x < lo then lo else hi)
      ∧ (y.toInt = x ∨ y.toInt = lo ∨ y.toInt = hi)

/-- R135 to R137: the clamp is `min (max x lo) hi` where the bounds are ordered and an ordered pair of tests where they are
not, and the laws of R137 (which the spec marks as derived). -/
def Obligations.ClampLaws : Prop :=
  (∀ x lo hi : Int, (lo ≤ hi → clamp x lo hi = min (max x lo) hi) ∧ (hi < lo → clamp x lo hi = if x < lo then lo else hi))
    ∧ (∀ x lo hi : Int, lo ≤ hi →
      (lo ≤ clamp x lo hi ∧ clamp x lo hi ≤ hi)
      ∧ (clamp x lo hi = x ↔ lo ≤ x ∧ x ≤ hi)
      ∧ clamp (clamp x lo hi) lo hi = clamp x lo hi
      ∧ ∀ x' : Int, x ≤ x' → clamp x lo hi ≤ clamp x' lo hi)
    ∧ ∀ x : Int, (x ≤ -32768 → clamp16 x = -32768) ∧ (32767 ≤ x → clamp16 x = 32767)
      ∧ (-32768 ≤ x → x ≤ 32767 → clamp16 x = x)

/-- R138 (which the spec marks as derived): in a legal state the argument of every clamp inside the codec units lies in the
range the table gives. It rests on the contents of the two tables (log 5). -/
def Obligations.ClampArgumentRanges : Prop :=
  (∀ (p x : Int) (i : Nat) (n : Nibble), isInt16 p → isInt16 x → i ≤ 88 →
      (-94204 ≤ p + adp4Diff (stepSize i) n ∧ p + adp4Diff (stepSize i) n ≤ 94203)
      ∧ (-1 ≤ (i : Int) + indexDeltaOf n ∧ (i : Int) + indexDeltaOf n ≤ 96)
      ∧ (-65535 ≤ x - p ∧ x - p ≤ 65535))
    ∧ (∀ (b : Byte) (prev : Int), isInt16 prev →
      (-32768 ≤ sdx2Sq (mval b) ∧ sdx2Sq (mval b) ≤ 31752)
      ∧ (-65536 ≤ prev + sdx2Sq (mval b) ∧ prev + sdx2Sq (mval b) ≤ 64519))
    ∧ (∀ v : Int, -32768 ≤ v → v ≤ 32768 → -128 ≤ scode v ∧ scode v ≤ 128)

/-! ### ADP4 functions (40_adp4_decoder.md R71 to R73, 41_adp4_encoder.md R85) -/

/-- R71: the reconstructed difference of a symbol, bit by bit, its sign, and its bound over the table, which is reached at
the largest step; the bound is what the spec marks as derived, and rests on the table's contents (log 5). -/
def Obligations.ReconstructedDifference : Prop :=
  (∀ (step : Nat) (n : Nibble),
      adp4Diff step n = (if 8 ≤ n.toNat then -1 else 1)
        * ((step / 8 + n.toNat / 4 % 2 * step + n.toNat / 2 % 2 * (step / 2) + n.toNat % 2 * (step / 4) : Nat) : Int))
    ∧ (∀ step ∈ stepTable, ∀ n : Nibble, -61436 ≤ adp4Diff step n ∧ adp4Diff step n ≤ 61436)
    ∧ adp4Diff 32767 0x7 = 61436 ∧ adp4Diff 32767 0xF = -61436

/-- R72 and R73 with the tables of R23 and R24: the one state transition of ADP4, with the step size before the update, the sum
formed in ℤ and the index adjusted by the whole symbol. The contents of the tables are general knowledge (log 5). -/
def Obligations.AdpStateTransition : Prop :=
  stepTable.length = 89
    ∧ ∀ (p : Int) (i step : Nat) (n : Nibble), stepTable[i]? = some step →
      adp4Update (p, i) n =
        (max (-32768) (min (p + adp4Diff step n) 32767),
         (max 0 (min ((i : Int) + (if n.toNat % 8 < 4 then -1 else 2 * ((n.toNat % 8 : Nat) : Int) - 6)) 88)).toNat)

/-- R85: the symbol's sign bit is set for every negative difference, and its magnitude bits are those of the subtractive
division of the saturated magnitude by `step`, `step >> 1`, `step >> 2`. -/
def Obligations.QuantizerSubtractiveDivision : Prop :=
  ∀ (p x : Int) (i step : Nat), isInt16 p → isInt16 x → stepTable[i]? = some step →
    let diff := max (-32768) (min (x - p) 32767)
    let n := (adp4Quant (p, i) x).toNat
    let after2 := diff.natAbs - n / 4 % 2 * step
    let after1 := after2 - n / 2 % 2 * (step / 2)
    (n / 8 = 1 ↔ diff < 0)
      ∧ (n / 4 % 2 = 1 ↔ step ≤ diff.natAbs)
      ∧ (n / 2 % 2 = 1 ↔ step / 2 ≤ after2)
      ∧ (n % 2 = 1 ↔ step / 4 ≤ after1)

/-! ### ADP4 commands -/

/-- R74, R87: `INIT` of an ADP4 unit sets the fresh-stream state (and empties A4E's packer), touches nothing else, and `READ`
then answers step size 7. -/
def Obligations.AdpInitStartsFresh : Prop :=
  decodesTo 0x20 (fun _ _ _ => .a4dInit)
    ∧ decodesTo 0x30 (fun _ _ _ => .a4eInit)
    ∧ ∀ s : State,
    (∃ t, exec .a4dInit s = .next t ∧ t.a4d.pred.toInt = 0 ∧ t.a4d.idx.toNat = 0 ∧ stepSize t.a4d.idx.toNat = 7
      ∧ t.rsp = some ⟨0, 0⟩ ∧ onlyUnit .a4d s t
      ∧ exec .a4dInit t = .next t
      ∧ exec .a4dRead t = .next { t with rsp := some ⟨0x0000000007000000, 0⟩ })
    ∧ (∃ t, exec .a4eInit s = .next t ∧ t.a4e.pred.toInt = 0 ∧ t.a4e.idx.toNat = 0 ∧ stepSize t.a4e.idx.toNat = 7
      ∧ t.a4e.phase = 0 ∧ t.a4e.pend = 0 ∧ t.rsp = some ⟨0, 0⟩ ∧ onlyUnit .a4e s t
      ∧ exec .a4eRead t = .next { t with rsp := some ⟨0x0000000007000000, 0⟩ })

/-- R75: `A4D.LOAD` loads an int16 predictor and an index up to 88, and rejects an index above 88 with no state change. -/
def Obligations.DecoderLoad : Prop :=
  decodesTo 0x21 (fun a b _ => .a4dLoad (a.setWidth 16).toInt (b.toNat % 256))
    ∧ ∀ (p : Int) (i : Nat) (s : State), isInt16 p →
    (i ≤ 88 → ∃ t, exec (.a4dLoad p i) s = .next t ∧ t.a4d.pred.toInt = p ∧ t.a4d.idx.toNat = i
      ∧ t.rsp = some ⟨0, 0⟩ ∧ onlyUnit .a4d s t)
    ∧ (88 < i → exec (.a4dLoad p i) s = .next { s with rsp := some ⟨0, 1⟩ })

/-- R76, R89, R107, R125: each `READ` answers its unit's registers, each in its field and every other bit of `Y` 0, and changes
nothing. -/
def Obligations.ReadCommandsReportEveryRegister : Prop :=
  decodesTo 0x22 (fun _ _ _ => .a4dRead)
    ∧ decodesTo 0x32 (fun _ _ _ => .a4eRead)
    ∧ decodesTo 0x42 (fun _ _ _ => .s2dRead)
    ∧ decodesTo 0x52 (fun _ _ _ => .s2eRead)
    ∧ ∀ s : State,
    (∀ step, stepTable[s.a4d.idx.toNat]? = some step →
      ∃ y : Word, exec .a4dRead s = .next { s with rsp := some ⟨y, 0⟩ }
        ∧ y.toNat = s.a4d.pred.toNat + 2 ^ 16 * s.a4d.idx.toNat + 2 ^ 24 * step)
    ∧ (∀ step, stepTable[s.a4e.idx.toNat]? = some step →
      ∃ y : Word, exec .a4eRead s = .next { s with rsp := some ⟨y, 0⟩ }
        ∧ y.toNat = s.a4e.pred.toNat + 2 ^ 16 * s.a4e.idx.toNat + 2 ^ 24 * step + 2 ^ 40 * s.a4e.pend.toNat
            + 2 ^ 48 * s.a4e.phase.toNat)
    ∧ (∃ y : Word, exec .s2dRead s = .next { s with rsp := some ⟨y, 0⟩ }
        ∧ y.toNat = s.s2d.prev0.toNat + 2 ^ 16 * s.s2d.prev1.toNat + 2 ^ 40 * s.s2d.ch.toNat + 2 ^ 48 * s.s2d.nch.toNat)
    ∧ (∃ y : Word, exec .s2eRead s = .next { s with rsp := some ⟨y, 0⟩ }
        ∧ y.toNat = s.s2e.prev0.toNat + 2 ^ 16 * s.s2e.prev1.toNat + 2 ^ 32 * s.s2e.started0.toNat
            + 2 ^ 33 * s.s2e.started1.toNat + 2 ^ 40 * s.s2e.ch.toNat + 2 ^ 48 * s.s2e.nch.toNat)

/-- R77: `A4D.SYM` applies `ADP4_UPDATE` and answers the new predictor, sign-extended. -/
def Obligations.DecodeOneSymbol : Prop :=
  decodesTo 0x23 (fun a _ _ => .a4dSym (a.setWidth 4))
    ∧ ∀ (n : Nibble) (s : State), ∃ (t : State) (y : Word),
    exec (.a4dSym n) s = .next t
      ∧ (t.a4d.pred.toInt, t.a4d.idx.toNat) = adp4Update (s.a4d.pred.toInt, s.a4d.idx.toNat) n
      ∧ t.rsp = some ⟨y, 0⟩ ∧ y.toInt = t.a4d.pred.toInt ∧ onlyUnit .a4d s t

/-- R78: `A4D.BYTE` decodes the high nibble and then the low nibble in the state the first one left, and answers both samples,
the earlier one in the low field. -/
def Obligations.DecodeOneByte : Prop :=
  decodesTo 0x24 (fun a _ _ => .a4dByte (a.setWidth 8))
    ∧ ∀ (b : Byte) (s : State), ∃ (t : State) (y : Word),
    let first := adp4Update (s.a4d.pred.toInt, s.a4d.idx.toNat) (BitVec.ofNat 4 (b.toNat / 16))
    let second := adp4Update first (BitVec.ofNat 4 (b.toNat % 16))
    exec (.a4dByte b) s = .next t
      ∧ (t.a4d.pred.toInt, t.a4d.idx.toNat) = second
      ∧ t.rsp = some ⟨y, 0⟩
      ∧ y.toNat = (BitVec.ofInt 16 first.1).toNat + 2 ^ 16 * (BitVec.ofInt 16 second.1).toNat
      ∧ onlyUnit .a4d s t

/-- R79: `A4D.HIGH` decodes the high nibble only: the low nibble occurs nowhere in what it leaves and answers. -/
def Obligations.DecodeHighNibbleOnly : Prop :=
  decodesTo 0x25 (fun a _ _ => .a4dHigh (a.setWidth 8))
    ∧ ∀ (b : Byte) (s : State), ∃ (t : State) (y : Word),
    exec (.a4dHigh b) s = .next t
      ∧ (t.a4d.pred.toInt, t.a4d.idx.toNat)
          = adp4Update (s.a4d.pred.toInt, s.a4d.idx.toNat) (BitVec.ofNat 4 (b.toNat / 16))
      ∧ t.rsp = some ⟨y, 0⟩ ∧ y.toInt = t.a4d.pred.toInt ∧ onlyUnit .a4d s t

/-- R88: `A4E.LOAD` loads the predictor state and the packer, `PEND` being 0 where the phase is 0, and rejects an index above
88 with no state change. -/
def Obligations.EncoderLoad : Prop :=
  decodesTo 0x31 (fun a b c =>
      .a4eLoad (a.setWidth 16).toInt (b.toNat % 256) (c.setWidth 4) (BitVec.ofBool (c.getLsbD 8)))
    ∧ ∀ (p : Int) (i : Nat) (q : Nibble) (h : Bit) (s : State), isInt16 p →
    (i ≤ 88 → ∃ t, exec (.a4eLoad p i q h) s = .next t ∧ t.a4e.pred.toInt = p ∧ t.a4e.idx.toNat = i
      ∧ t.a4e.phase = h ∧ (h = 1 → t.a4e.pend = q) ∧ (h = 0 → t.a4e.pend = 0)
      ∧ t.rsp = some ⟨0, 0⟩ ∧ onlyUnit .a4e s t)
    ∧ (88 < i → exec (.a4eLoad p i q h) s = .next { s with rsp := some ⟨0, 1⟩ })

/-- R90 with R86: `A4E.SYM` answers the symbol and the reconstruction, and the new state is `ADP4_UPDATE` of the symbol it
produced; the packer is not touched. -/
def Obligations.EncodeOneSymbol : Prop :=
  decodesTo 0x33 (fun a _ _ => .a4eSym (a.setWidth 16).toInt)
    ∧ ∀ (x : Int) (s : State), ∃ (t : State) (y : Word),
    let n := adp4Quant (s.a4e.pred.toInt, s.a4e.idx.toNat) x
    exec (.a4eSym x) s = .next t
      ∧ (t.a4e.pred.toInt, t.a4e.idx.toNat) = adp4Update (s.a4e.pred.toInt, s.a4e.idx.toNat) n
      ∧ t.a4e.phase = s.a4e.phase ∧ t.a4e.pend = s.a4e.pend
      ∧ t.rsp = some ⟨y, 0⟩ ∧ y.toNat = n.toNat + 2 ^ 16 * t.a4e.pred.toNat ∧ onlyUnit .a4e s t

/-- R91: `A4E.PUSH` codes as `A4E.SYM` does; the first sample of a pair becomes the pending nibble and no byte is emitted, the
second one completes the byte below the pending nibble and empties the packer. -/
def Obligations.PushPacksTwoSymbols : Prop :=
  decodesTo 0x34 (fun a _ _ => .a4ePush (a.setWidth 16).toInt)
    ∧ ∀ (x : Int) (s : State), ∃ (t : State) (y : Word),
    let n := adp4Quant (s.a4e.pred.toInt, s.a4e.idx.toNat) x
    let both := 2 ^ 12 * n.toNat + 2 ^ 16 * t.a4e.pred.toNat
    exec (.a4ePush x) s = .next t
      ∧ (t.a4e.pred.toInt, t.a4e.idx.toNat) = adp4Update (s.a4e.pred.toInt, s.a4e.idx.toNat) n
      ∧ (s.a4e.phase = 0 → t.a4e.phase = 1 ∧ t.a4e.pend = n ∧ y.toNat = both)
      ∧ (s.a4e.phase = 1 → t.a4e.phase = 0 ∧ t.a4e.pend = 0
          ∧ y.toNat = 16 * s.a4e.pend.toNat + n.toNat + 2 ^ 8 + both)
      ∧ t.rsp = some ⟨y, 0⟩ ∧ onlyUnit .a4e s t

/-- R92: `A4E.FLUSH` emits a pending nibble as a byte whose low nibble is 0 and empties the packer, and otherwise does nothing;
the predictor state stays. -/
def Obligations.FlushEmitsPendingNibble : Prop :=
  decodesTo 0x35 (fun _ _ _ => .a4eFlush)
    ∧ ∀ s : State,
    (s.a4e.phase = 1 → ∃ (t : State) (y : Word), exec .a4eFlush s = .next t
      ∧ t.a4e.pred = s.a4e.pred ∧ t.a4e.idx = s.a4e.idx ∧ t.a4e.phase = 0 ∧ t.a4e.pend = 0
      ∧ t.rsp = some ⟨y, 0⟩ ∧ y.toNat = 16 * s.a4e.pend.toNat + 2 ^ 8 ∧ onlyUnit .a4e s t)
    ∧ (s.a4e.phase = 0 → exec .a4eFlush s = .next { s with rsp := some ⟨0, 0⟩ })

/-! ### SDX2 functions (42_sdx2_decoder.md R101 to R110, 43_sdx2_encoder.md R115 to R122) -/

/-- R101 to R104: the value a byte carries is its bit pattern with bit 0 cleared, read as signed; its signed square is the new
sample in exact mode (bit 0 is 0) and is added to the previous one in delta mode, saturated. -/
def Obligations.SdxReconstruction : Prop :=
  (∀ m : Int, sdx2Sq m = 2 * m * |m|)
    ∧ ∀ b : Byte,
    let low := ((b.toNat / 2 * 2 : Nat) : Int)
    let m := if b.toNat < 128 then low else low - 256
    mval b = m
      ∧ ∀ prev : Int,
        (b.toNat % 2 = 0 → sdx2Recon b prev = max (-32768) (min (2 * m * |m|) 32767))
        ∧ (b.toNat % 2 = 1 → sdx2Recon b prev = max (-32768) (min (prev + 2 * m * |m|) 32767))

/-- R109 and R110 (which the spec marks as derived): exact bytes ignore the previous sample, and the samples they produce are
exactly the 128 signed squares of the even numbers in [-128, 126], no two alike. -/
def Obligations.ExactModeSamples : Prop :=
  (∀ (b : Byte) (prev1 prev2 : Int), b.toNat % 2 = 0 → sdx2Recon b prev1 = sdx2Recon b prev2)
    ∧ (∀ v : Int, (∃ (b : Byte) (prev : Int), b.toNat % 2 = 0 ∧ sdx2Recon b prev = v)
        ↔ ∃ j : Int, -64 ≤ j ∧ j ≤ 63 ∧ v = 2 * (2 * j) * |2 * j|)
    ∧ ∀ j j' : Int, 2 * (2 * j) * |2 * j| = 2 * (2 * j') * |2 * j'| → j = j'

/-- R115: `RSQ` is the largest integer passing the rule's test, which is the square root of half its argument rounded to the
nearest integer, with no ties; on [0, 32768] it is in [0, 128] and is 128 from 32513 on. -/
def Obligations.RoundedRootOfHalf : Prop :=
  ∀ x : Nat,
    (rsq x = 0 ∨ 2 * (rsq x : Int) * rsq x - 2 * rsq x < x)
      ∧ (∀ k : Nat, (k = 0 ∨ 2 * (k : Int) * k - 2 * k < x) → k ≤ rsq x)
      ∧ |Real.sqrt ((x : ℝ) / 2) - (rsq x : ℝ)| < 1 / 2
      ∧ (x ≤ 32768 → rsq x ≤ 128 ∧ (rsq x = 128 ↔ 32513 ≤ x))

/-- R116 to R118: the signed root, its clamp into a signed byte, which changes only the code 128 (that is `v >= 32513`), and
the two candidates, which carry one value: the code rounded down to even. -/
def Obligations.SignedRootCodes : Prop :=
  ∀ v : Int,
    (scode v = if v < 0 then -(rsq v.natAbs : Int) else rsq v.natAbs)
      ∧ code8 v = max (-128) (min (scode v) 127)
      ∧ (-32768 ≤ v → v ≤ 32768 → code8 v = if 32513 ≤ v then 127 else scode v)
      ∧ mval (exactCode v) = 2 * (code8 v / 2) ∧ mval (deltaCode v) = 2 * (code8 v / 2)
      ∧ (exactCode v).toNat % 2 = 0 ∧ (deltaCode v).toNat % 2 = 1

/-- R120: the search keeps, of the byte and its two neighbours inside the signed byte range, the first one of smallest error in
the order `b`, `b + 2`, `b - 2`, with its error, and keeps the mode bit. -/
def Obligations.NeighbourSearch : Prop :=
  ∀ (b : Byte) (x prev : Int),
    let best := sdx2Search b x prev
    let inRange := fun d : Int => -128 ≤ b.toInt + d ∧ b.toInt + d ≤ 127
    let err := fun d : Int => sdx2Err x (BitVec.ofInt 8 (b.toInt + d)) prev
    ∃ d : Int, (d = 0 ∨ d = 2 ∨ d = -2) ∧ inRange d
      ∧ best = (BitVec.ofInt 8 (b.toInt + d), err d)
      ∧ (∀ d' : Int, (d' = 0 ∨ d' = 2 ∨ d' = -2) → inRange d' → err d ≤ err d')
      ∧ (d = 2 → err 2 < err 0)
      ∧ (d = -2 → err (-2) < err 0 ∧ (inRange 2 → err (-2) < err 2))
      ∧ best.1.toNat % 2 = b.toNat % 2

/-- R121: where the unclamped reconstruction exceeds 30000 in magnitude the guard moves the code's value one step of 2 toward
0, once, a value of 0 never; it keeps the mode bit. -/
def Obligations.OverflowGuard : Prop :=
  ∀ (dc : Byte) (prev : Int),
    let m := mval dc
    (|prev + sdx2Sq m| ≤ 30000 ∨ m = 0 → sdx2Guard dc prev = dc)
      ∧ (30000 < |prev + sdx2Sq m| → 0 < m → mval (sdx2Guard dc prev) = m - 2)
      ∧ (30000 < |prev + sdx2Sq m| → m < 0 → mval (sdx2Guard dc prev) = m + 2)
      ∧ (sdx2Guard dc prev).toNat % 2 = dc.toNat % 2

/-- R122: the byte chosen for a sample. A first sample takes its exact code; a difference above 32767 takes the refined exact
code; otherwise the refined code of smaller error wins, an exact one on a tie. -/
def Obligations.EncoderChoosesSmallerError : Prop :=
  ∀ x prev : Int,
    let e := sdx2Search (exactCode x) x prev
    let dd := sdx2Search (sdx2Guard (deltaCode (x - prev)) prev) x prev
    sdx2Enc x prev 0 = exactCode x
      ∧ (32767 < |x - prev| → sdx2Enc x prev 1 = e.1)
      ∧ (|x - prev| ≤ 32767 →
          sdx2Err x (sdx2Enc x prev 1) prev = min e.2 dd.2
          ∧ ((sdx2Enc x prev 1).toNat % 2 = 1 ↔ dd.2 < e.2)
          ∧ (sdx2Enc x prev 1 = e.1 ∨ sdx2Enc x prev 1 = dd.1))

/-- R127 (b), (c) (which the spec marks as derived): the first byte of a channel is in exact mode, and the byte chosen for a
later sample is never worse than the sample's exact code. -/
def Obligations.ChosenByteIsNeverWorse : Prop :=
  ∀ x prev : Int,
    (sdx2Enc x prev 0).toNat % 2 = 0
      ∧ sdx2Err x (sdx2Enc x prev 1) prev ≤ sdx2Err x (exactCode x) prev

/-! ### SDX2 commands -/

/-- R105, R123: `INIT` of an SDX2 unit takes channel counts 1 and 2, sets the fresh-stream state and touches nothing else; any
other count is rejected with no state change. -/
def Obligations.SdxInitChannelCount : Prop :=
  decodesTo 0x40 (fun a _ _ => .s2dInit (a.toNat % 256))
    ∧ decodesTo 0x50 (fun a _ _ => .s2eInit (a.toNat % 256))
    ∧ ∀ (k : Nat) (s : State),
    ((k = 1 ∨ k = 2) →
      (∃ t, exec (.s2dInit k) s = .next t ∧ t.s2d.nch.toNat = k ∧ t.s2d.ch = 0 ∧ t.s2d.prev0.toInt = 0
        ∧ t.s2d.prev1.toInt = 0 ∧ t.rsp = some ⟨0, 0⟩ ∧ onlyUnit .s2d s t)
      ∧ (∃ t, exec (.s2eInit k) s = .next t ∧ t.s2e.nch.toNat = k ∧ t.s2e.ch = 0 ∧ t.s2e.prev0.toInt = 0
        ∧ t.s2e.prev1.toInt = 0 ∧ t.s2e.started0 = 0 ∧ t.s2e.started1 = 0
        ∧ t.rsp = some ⟨0, 0⟩ ∧ onlyUnit .s2e s t))
    ∧ (k ≠ 1 → k ≠ 2 →
      exec (.s2dInit k) s = .next { s with rsp := some ⟨0, 1⟩ }
      ∧ exec (.s2eInit k) s = .next { s with rsp := some ⟨0, 1⟩ })

/-- R106: `S2D.LOAD` sets one channel's previous sample and the channel pointer, keeps the channel count and the other channel,
and rejects a channel the stream does not have. -/
def Obligations.SdxDecoderLoad : Prop :=
  decodesTo 0x41 (fun a b c =>
      .s2dLoad (a.setWidth 16).toInt (BitVec.ofBool (b.getLsbD 0)) (BitVec.ofBool (c.getLsbD 0)))
    ∧ ∀ (p : Int) (c q : Bit) (s : State), isInt16 p →
    (c.toNat < s.s2d.nch.toNat → q.toNat < s.s2d.nch.toNat →
      ∃ t, exec (.s2dLoad p c q) s = .next t ∧ t.s2d.prev c = p ∧ (∀ d, d ≠ c → t.s2d.prev d = s.s2d.prev d)
        ∧ t.s2d.ch = q ∧ t.s2d.nch = s.s2d.nch ∧ t.rsp = some ⟨0, 0⟩ ∧ onlyUnit .s2d s t)
    ∧ (s.s2d.nch.toNat ≤ c.toNat ∨ s.s2d.nch.toNat ≤ q.toNat →
      exec (.s2dLoad p c q) s = .next { s with rsp := some ⟨0, 1⟩ })

/-- R108: `S2D.BYTE` reconstructs a sample of the current channel, which becomes its previous sample and is answered
sign-extended, and moves the pointer to the next channel modulo the channel count. -/
def Obligations.SdxDecodeOneByte : Prop :=
  decodesTo 0x43 (fun a _ _ => .s2dByte (a.setWidth 8))
    ∧ ∀ (b : Byte) (s : State), s.s2d.nch.toNat = 1 ∨ s.s2d.nch.toNat = 2 →
    ∃ (t : State) (y : Word), exec (.s2dByte b) s = .next t
      ∧ t.s2d.prev s.s2d.ch = sdx2Recon b (s.s2d.prev s.s2d.ch)
      ∧ (∀ d, d ≠ s.s2d.ch → t.s2d.prev d = s.s2d.prev d)
      ∧ t.s2d.ch.toNat = (s.s2d.ch.toNat + 1) % s.s2d.nch.toNat ∧ t.s2d.nch = s.s2d.nch
      ∧ t.rsp = some ⟨y, 0⟩ ∧ y.toInt = sdx2Recon b (s.s2d.prev s.s2d.ch) ∧ onlyUnit .s2d s t

/-- R124: `S2E.LOAD` sets one channel's previous sample and first-sample flag and the channel pointer, keeps the channel count
and the other channel, and rejects a channel the stream does not have. -/
def Obligations.SdxEncoderLoad : Prop :=
  decodesTo 0x51 (fun a b c =>
      .s2eLoad (a.setWidth 16).toInt (BitVec.ofBool (b.getLsbD 0)) (BitVec.ofBool (c.getLsbD 0)) (BitVec.ofBool (c.getLsbD 8)))
    ∧ ∀ (p : Int) (c q f : Bit) (s : State), isInt16 p →
    (c.toNat < s.s2e.nch.toNat → q.toNat < s.s2e.nch.toNat →
      ∃ t, exec (.s2eLoad p c q f) s = .next t ∧ t.s2e.prev c = p ∧ t.s2e.started c = f
        ∧ (∀ d, d ≠ c → t.s2e.prev d = s.s2e.prev d ∧ t.s2e.started d = s.s2e.started d)
        ∧ t.s2e.ch = q ∧ t.s2e.nch = s.s2e.nch ∧ t.rsp = some ⟨0, 0⟩ ∧ onlyUnit .s2e s t)
    ∧ (s.s2e.nch.toNat ≤ c.toNat ∨ s.s2e.nch.toNat ≤ q.toNat →
      exec (.s2eLoad p c q f) s = .next { s with rsp := some ⟨0, 1⟩ })

/-- R126: `S2E.SAMPLE` emits the byte `SDX2_ENC` chooses for the current channel; the decoded value of that byte, not the
sample, becomes the previous sample; the channel has started; the pointer moves on modulo the channel count. -/
def Obligations.SdxEncodeOneSample : Prop :=
  decodesTo 0x53 (fun a _ _ => .s2eSample (a.setWidth 16).toInt)
    ∧ ∀ (x : Int) (s : State), s.s2e.nch.toNat = 1 ∨ s.s2e.nch.toNat = 2 →
    ∃ (t : State) (y : Word),
      let c := s.s2e.ch
      let b := sdx2Enc x (s.s2e.prev c) (s.s2e.started c)
      let r := sdx2Recon b (s.s2e.prev c)
      exec (.s2eSample x) s = .next t
        ∧ t.s2e.prev c = r ∧ t.s2e.started c = 1
        ∧ (∀ d, d ≠ c → t.s2e.prev d = s.s2e.prev d ∧ t.s2e.started d = s.s2e.started d)
        ∧ t.s2e.ch.toNat = (c.toNat + 1) % s.s2e.nch.toNat ∧ t.s2e.nch = s.s2e.nch
        ∧ t.rsp = some ⟨y, 0⟩
        ∧ y.toNat = b.toNat + 2 ^ 16 * (BitVec.ofInt 16 r).toNat + 2 ^ 40 * c.toNat
        ∧ onlyUnit .s2e s t

/-- R100 (what follows from it) and R126: from channel 0 of a legal state, after `k` bytes (or samples) the pointer is at
channel `k mod NCH`. -/
def Obligations.ChannelsAlternate : Prop :=
  ∀ s : State, s.Legal →
    (∀ bytes : List Byte, s.s2d.ch = 0 →
      let ts := execTrace (bytes.map .s2dByte) s
      ts.length = bytes.length ∧ ((ts.getLast?).getD s).s2d.ch.toNat = bytes.length % s.s2d.nch.toNat)
    ∧ (∀ samples : List Int, s.s2e.ch = 0 →
      let ts := execTrace (samples.map .s2eSample) s
      ts.length = samples.length ∧ ((ts.getLast?).getD s).s2e.ch.toNat = samples.length % s.s2e.nch.toNat)

/-! ### Properties of whole streams -/

/-- R93 (which the spec marks as derived): from equal predictor states, after A4E has coded any samples with `A4E.SYM` or
`A4E.PUSH`, decoding the reported symbols with `A4D.SYM` emits exactly the values `A4E.PRED` took and ends in the same
predictor state. -/
def Obligations.EncoderAndDecoderTracesAgree : Prop :=
  ∀ (xs : List (Bool × Int)) (s s' : State), s'.a4d.pred = s.a4e.pred → s'.a4d.idx = s.a4e.idx →
    let es := execTrace (xs.map (fun x => codeSample x.1 x.2)) s
    let symbols := (xs.zip es).map (fun xe => symbolOf xe.1.1 xe.2)
    let ds := execTrace (symbols.map .a4dSym) s'
    es.length = xs.length ∧ ds.length = xs.length
      ∧ ds.map (fun t => t.ySigned?) = es.map (fun t => some t.a4e.pred.toInt)
      ∧ ds.map (fun t => (t.a4d.pred, t.a4d.idx)) = es.map (fun t => (t.a4e.pred, t.a4e.idx))

/-- R94 (which the spec marks as derived): from the fresh state every zero sample gives symbol 0, and the predictor and the
index stay 0. That the index stays 0 rests on `INDEX_DELTA[0] = -1`, general knowledge and not the source's (PRESUMED, log
5). -/
def Obligations.SilenceStaysSilence : Prop :=
  ∀ (pushes : List Bool) (s : State), s.a4e.pred = 0 → s.a4e.idx = 0 →
    let es := execTrace (pushes.map (fun push => codeSample push 0)) s
    es.length = pushes.length
      ∧ (pushes.zip es).map (fun pe => symbolOf pe.1 pe.2) = List.replicate pushes.length 0
      ∧ ∀ t ∈ es, t.a4e.pred = 0 ∧ t.a4e.idx = 0

/-- R127 (a) (which the spec marks as derived): an S2D in the state of a legal S2E tracks it exactly: decoding the emitted
bytes reproduces every previous sample the encoder took, and answers it. -/
def Obligations.SdxDecoderTracksEncoder : Prop :=
  ∀ (xs : List Int) (s s' : State), s.s2e.nch.toNat = 1 ∨ s.s2e.nch.toNat = 2 →
    s'.s2d = ⟨s.s2e.nch, s.s2e.ch, s.s2e.prev0, s.s2e.prev1⟩ →
    let es := execTrace (xs.map .s2eSample) s
    let ds := execTrace ((es.map (fun t => (t.yField? 0 8).getD 0)).map .s2dByte) s'
    es.length = xs.length ∧ ds.length = xs.length
      ∧ ds.map (fun t => t.s2d) = es.map (fun t => ⟨t.s2e.nch, t.s2e.ch, t.s2e.prev0, t.s2e.prev1⟩)
      ∧ ds.map (fun t => t.ySigned?) = es.map (fun t => (t.yField? 16 16).map BitVec.toInt)

/-- R156 (which the spec marks as derived) with R151 to R154: a stream procedure in its continue form fails with `InvalidArgument` exactly where its input is too
short or its capacity too small, with no command issued and the state unchanged; otherwise it completes with exactly the number
of values the rules give. That `PHASE` is read from the register with no command issued, and that R156's unchanged state is
read of the continue form only, is the model's reading (DEDUCED, log 17). -/
def Obligations.StreamPreconditions : Prop :=
  ∀ (s : State) (cap : Nat),
    (∀ (bytes : List Byte) (count : Nat),
      (bytes.length < (count + 1) / 2 ∨ cap < count → adp4Decode bytes count cap s = .invalidArgument s)
      ∧ ((count + 1) / 2 ≤ bytes.length → count ≤ cap →
          ∃ out t, adp4Decode bytes count cap s = .done out t ∧ out.length = count))
    ∧ (∀ (samples : List Int) (eos : Bool),
      let total := s.a4e.phase.toNat + samples.length
      let nOut := if eos then (total + 1) / 2 else total / 2
      (cap < nOut → adp4Encode samples eos cap s = .invalidArgument s)
      ∧ (nOut ≤ cap → ∃ out t, adp4Encode samples eos cap s = .done out t ∧ out.length = nOut))
    ∧ (∀ bytes : List Byte,
      (cap < bytes.length → sdx2Decode bytes cap s = .invalidArgument s)
      ∧ (bytes.length ≤ cap → ∃ out t, sdx2Decode bytes cap s = .done out t ∧ out.length = bytes.length))
    ∧ (∀ samples : List Int,
      (cap < samples.length → sdx2Encode samples cap s = .invalidArgument s)
      ∧ (samples.length ≤ cap → ∃ out t, sdx2Encode samples cap s = .done out t ∧ out.length = samples.length))

/-- R151, its sentence about `A4D.SYM` (which the spec marks as derived): `ADP4_DECODE` emits what `A4D.SYM` emits on the
nibbles of the bytes, high nibble first, cut after `count` of them, and ends in the same predictor state; what lies beyond is
not read. -/
def Obligations.DecodeIsSymbolBySymbol : Prop :=
  ∀ (bytes : List Byte) (count cap : Nat) (s t : State) (out : List Int), adp4Decode bytes count cap s = .done out t →
    let ts := execTrace (((nibblesOf bytes).take count).map .a4dSym) s
    out = ts.map (fun u => u.a4d.pred.toInt) ∧ t.a4d = ((ts.getLast?).getD s).a4d

/-- R157 (which the spec marks as derived): encoding ADP4 in two chunks, the first one not flushed, emits the same bytes and
leaves the same state as encoding the whole in one call, for every split. -/
def Obligations.AdpEncodeInChunks : Prop :=
  ∀ (x1 x2 : List Int) (eos : Bool) (cap1 cap2 cap : Nat) (s s1 s2 : State) (o1 o2 : List Byte),
    adp4Encode x1 false cap1 s = .done o1 s1 → adp4Encode x2 eos cap2 s1 = .done o2 s2 →
    o1.length + o2.length ≤ cap →
    adp4Encode (x1 ++ x2) eos cap s = .done (o1 ++ o2) s2

/-- R158 (which the spec marks as derived): decoding ADP4 in two chunks, the first one of even count, emits the same samples
and leaves the same state as decoding in one call. -/
def Obligations.AdpDecodeInChunks : Prop :=
  ∀ (b1 b2 : List Byte) (n1 n2 cap1 cap2 cap : Nat) (s s1 s2 : State) (o1 o2 : List Int),
    n1 % 2 = 0 → adp4Decode b1 n1 cap1 s = .done o1 s1 → adp4Decode b2 n2 cap2 s1 = .done o2 s2 →
    n1 + n2 ≤ cap →
    adp4Decode (b1.take (n1 / 2) ++ b2) (n1 + n2) cap s = .done (o1 ++ o2) s2

/-- R159 (which the spec marks as derived): SDX2 in two chunks, either direction, for any split. -/
def Obligations.SdxInChunks : Prop :=
  (∀ (b1 b2 : List Byte) (cap1 cap2 cap : Nat) (s s1 s2 : State) (o1 o2 : List Int),
      sdx2Decode b1 cap1 s = .done o1 s1 → sdx2Decode b2 cap2 s1 = .done o2 s2 → o1.length + o2.length ≤ cap →
      sdx2Decode (b1 ++ b2) cap s = .done (o1 ++ o2) s2)
    ∧ (∀ (x1 x2 : List Int) (cap1 cap2 cap : Nat) (s s1 s2 : State) (o1 o2 : List Byte),
      sdx2Encode x1 cap1 s = .done o1 s1 → sdx2Encode x2 cap2 s1 = .done o2 s2 → o1.length + o2.length ≤ cap →
      sdx2Encode (x1 ++ x2) cap s = .done (o1 ++ o2) s2)

/-- R160 (which the spec marks as derived) for ADP4: the fresh decode of the fresh encode of any int16 sequence returns
exactly the values `A4E.PRED` took, and for an odd length the low nibble of the last byte does not matter. -/
def Obligations.AdpRoundTrip : Prop :=
  ∀ (xs : List Int) (s : State) (cap cap' : Nat), (∀ x ∈ xs, isInt16 x) → (xs.length + 1) / 2 ≤ cap → xs.length ≤ cap' →
    ∃ (s0 t u : State) (bytes : List Byte),
      let trace := (execTrace (xs.map .a4ePush) s0).map (fun v => v.a4e.pred.toInt)
      exec .a4eInit s = .next s0
        ∧ trace.length = xs.length
        ∧ adp4EncodeFresh xs cap s = .done bytes t
        ∧ adp4DecodeFresh bytes xs.length cap' t = .done trace u
        ∧ u.a4d.pred = u.a4e.pred ∧ u.a4d.idx = u.a4e.idx
        ∧ (xs.length % 2 = 1 → ∀ low : Nibble, ∃ u',
            adp4DecodeFresh (bytes.dropLast ++ bytes.getLast?.toList.map (fun b => highNibble b ++ low)) xs.length cap' t
              = .done trace u')

/-- R160 (which the spec marks as derived) for SDX2: the fresh decode of the fresh encode of any int16 sequence, with the
same channel count, returns the reconstructions `S2E.SAMPLE` reported in `Y[31:16]`. -/
def Obligations.SdxRoundTrip : Prop :=
  ∀ (xs : List Int) (channels : Nat) (s : State) (cap cap' : Nat), (∀ x ∈ xs, isInt16 x) → channels = 1 ∨ channels = 2 →
    xs.length ≤ cap → xs.length ≤ cap' →
    ∃ (s0 t u : State) (bytes : List Byte) (recons : List Int),
      exec (.s2eInit channels) s = .next s0
        ∧ recons.length = xs.length
        ∧ (execTrace (xs.map .s2eSample) s0).map (fun v => (v.yField? 16 16).map BitVec.toInt) = recons.map some
        ∧ sdx2EncodeFresh xs channels cap s = .done bytes t
        ∧ sdx2DecodeFresh bytes channels cap' t = .done recons u

/-- R80 (which the spec marks as derived), of A4D. (a) After every command the index is in range and `STEP` agrees with it,
whatever the command and whatever unit it names. (b) Every emitted sample is an int16. (c) The samples a sequence of commands
emits depend only on A4D's registers and the sequence, commands to other units between them making no difference; so a sequence
decoded in pieces with A4D's registers carried forward emits what it emits whole, and so does a byte stream whose pieces but the
last have an even count, that is end on a byte boundary. -/
def Obligations.DecoderStreamProperties : Prop :=
  (∀ (i : Instr) (s t : State), s.a4d.StepAgrees → exec i s = .next t → t.a4d.StepAgrees)
    ∧ (∀ (is : List Instr) (s : State), ∀ x ∈ emittedSamples is s, isInt16 x)
    ∧ (∀ (is : List Instr) (s s' : State), s.a4d = s'.a4d → emittedSamples is s = emittedSamples is s')
    ∧ (∀ (is js : List Instr) (s s' : State), s'.a4d = (((execTrace is s).getLast?).getD s).a4d →
        emittedSamples (is ++ js) s = emittedSamples is s ++ emittedSamples js s')
    ∧ (∀ (b1 b2 : List Byte) (n1 n2 cap1 cap2 cap : Nat) (s s1 s' s2 : State) (o1 o2 : List Int),
        n1 % 2 = 0 → adp4Decode b1 n1 cap1 s = .done o1 s1 → s'.a4d = s1.a4d → adp4Decode b2 n2 cap2 s' = .done o2 s2 →
        n1 + n2 ≤ cap →
        ∃ t, adp4Decode (b1.take (n1 / 2) ++ b2) (n1 + n2) cap s = .done (o1 ++ o2) t ∧ t.a4d = s2.a4d)
end

