-- ==== Sys2Proof/Laws/Fields.lean ====
section
/-! SUPPORT. Everything the field operations of the result bus can do. -/

namespace Sys2Proof.Machine

/-- One bit of `Y` after a field is set: inside the field it is the field's bit, outside it is what it was. -/
theorem setField_getLsbD {w : Nat} (y : Word) (lo : Nat) (v : BitVec w) (j : Nat) (hj : j < 64) :
    (setField y lo v).getLsbD j = if lo ≤ j ∧ j < lo + w then v.getLsbD (j - lo) else y.getLsbD j := by
  simp only [setField, BitVec.getLsbD_or, BitVec.getLsbD_and, BitVec.getLsbD_not, BitVec.getLsbD_shiftLeft,
    BitVec.getLsbD_setWidth, BitVec.getLsbD_allOnes]
  by_cases h1 : lo ≤ j
  · by_cases h2 : j < lo + w
    · simp [h1, h2, hj, show ¬ j < lo by omega, show j - lo < w by omega, show j - lo < 64 by omega]
    · have h3 : ¬ j - lo < w := by omega
      simp [h1, h2, h3, hj, show ¬ j < lo by omega, BitVec.getLsbD_of_ge v (j - lo) (by omega)]
  · simp [h1, hj, show j < lo by omega]

/-- Reading back the field that was set. -/
theorem bitField_setField_same {w : Nat} (y : Word) (lo : Nat) (v : BitVec w) (h : lo + w ≤ 64) :
    bitField (setField y lo v) lo w = v := by
  apply BitVec.eq_of_getLsbD_eq
  intro j hj
  rw [bitField, BitVec.getLsbD_extractLsb', setField_getLsbD y lo v (lo + j) (by omega)]
  simp [hj]

/-- Reading a field that does not meet the one that was set. -/
theorem bitField_setField_apart {w w' : Nat} (y : Word) (lo lo' : Nat) (v : BitVec w) (h : lo' + w' ≤ 64)
    (apart : lo' + w' ≤ lo ∨ lo + w ≤ lo') : bitField (setField y lo v) lo' w' = bitField y lo' w' := by
  apply BitVec.eq_of_getLsbD_eq
  intro j hj
  simp only [bitField, BitVec.getLsbD_extractLsb', hj, decide_true, Bool.true_and]
  rw [setField_getLsbD y lo v (lo' + j) (by omega), if_neg (by omega)]

/-- Setting a field above every bit that is set adds the field's value at its place. -/
theorem setField_toNat {w : Nat} (y : Word) (lo : Nat) (v : BitVec w) (h : lo + w ≤ 64) (hy : y.toNat < 2 ^ lo) :
    (setField y lo v).toNat = y.toNat + 2 ^ lo * v.toNat := by
  have hv : v.toNat < 2 ^ w := v.isLt
  have hlt : y.toNat + 2 ^ lo * v.toNat < 2 ^ 64 := by
    have h1 : 2 ^ lo * v.toNat + 2 ^ lo ≤ 2 ^ lo * 2 ^ w := by
      rw [← Nat.mul_succ]; exact Nat.mul_le_mul_left _ hv
    have h2 : 2 ^ lo * 2 ^ w ≤ 2 ^ 64 := by
      rw [← Nat.pow_add]; exact Nat.pow_le_pow_right (by decide) h
    omega
  have key : setField y lo v = BitVec.ofNat 64 (y.toNat + 2 ^ lo * v.toNat) := by
    apply BitVec.eq_of_getLsbD_eq
    intro j hj
    rw [setField_getLsbD y lo v j hj, BitVec.getLsbD_ofNat, Nat.add_comm y.toNat,
      Nat.testBit_two_pow_mul_add _ hy]
    by_cases h1 : j < lo
    · simp [h1, hj, show ¬ lo ≤ j by omega]; rfl
    · by_cases h2 : j < lo + w
      · simp [h1, h2, hj, show lo ≤ j by omega]; rfl
      · have : v.getLsbD (j - lo) = false := BitVec.getLsbD_of_ge v _ (by omega)
        have hyj : y.getLsbD j = false := by
          rw [BitVec.getLsbD]
          exact Nat.testBit_lt_two_pow (lt_of_lt_of_le hy (Nat.pow_le_pow_right (by decide) (by omega)))
        rw [BitVec.getLsbD] at this
        rw [if_neg (by omega), hyj, if_neg (by omega), this]
        simp
  rw [key, BitVec.toNat_ofNat, Nat.mod_eq_of_lt hlt]

/-- An `int16` written to a 16-bit register reads back as itself (R13, R14). -/
theorem bitsOf_16_toInt (z : Int) (h1 : -32768 ≤ z) (h2 : z ≤ 32767) : (bitsOf 16 z).toInt = z := by
  rw [bitsOf, BitVec.toInt_ofInt]
  exact Int.bmod_eq_of_le (by omega) (by omega)

/-- A 64-bit signed value placed on the bus reads back as itself (R13). -/
theorem bitsOf_64_toInt (z : Int) (h1 : -9223372036854775808 ≤ z) (h2 : z ≤ 9223372036854775807) :
    (bitsOf 64 z).toInt = z := by
  rw [bitsOf, BitVec.toInt_ofInt]
  exact Int.bmod_eq_of_le (by omega) (by omega)

end Sys2Proof.Machine
end

