-- ==== Sys2Proof/Laws/Codec.lean ====
section
/-! SUPPORT. The range of every value the codec functions hand to a register, and what the operations over a pair of channel
registers do. -/

namespace Sys2Proof.Machine

/-- `CLAMP` lands between its bounds (R137). -/
theorem clamp_mem (x lo hi : Int) (h : lo ≤ hi) : lo ≤ clamp x lo hi ∧ clamp x lo hi ≤ hi := by
  unfold clamp; split <;> [skip; split] <;> omega

/-- For ordered bounds `CLAMP` is `min(max(x, lo), hi)` (R135). -/
theorem clamp_eq_min_max (x lo hi : Int) (h : lo ≤ hi) : clamp x lo hi = min (max x lo) hi := by
  unfold clamp; split <;> [skip; split] <;> omega

/-- `CLAMP16` gives an `int16` (R136). -/
theorem clamp16_mem (x : Int) : -32768 ≤ clamp16 x ∧ clamp16 x ≤ 32767 := clamp_mem x _ _ (by decide)

/-- `ADP4_NEXT_IDX` stays in `[0, 88]` (R72). -/
theorem adp4NextIdx_le (i : Nat) (n : Nibble) : adp4NextIdx i n ≤ 88 := by
  have h := clamp_mem ((i : Int) + indexDeltaOf n) 0 (adp4IdxMax : Int) (by decide)
  have h2 : (adp4IdxMax : Int) = 88 := rfl
  unfold adp4NextIdx; omega

/-- `ADP4_UPDATE` gives an `int16` and an index in range (R73). -/
theorem adp4Update_mem (st : Int × Nat) (n : Nibble) :
    (-32768 ≤ (adp4Update st n).1 ∧ (adp4Update st n).1 ≤ 32767) ∧ (adp4Update st n).2 ≤ 88 :=
  ⟨clamp16_mem _, adp4NextIdx_le _ _⟩

/-- `SDX2_RECON` gives an `int16` (R104). -/
theorem sdx2Recon_mem (b : Byte) (prev : Int) : -32768 ≤ sdx2Recon b prev ∧ sdx2Recon b prev ≤ 32767 := by
  unfold sdx2Recon; split <;> exact clamp16_mem _

/-- A one-bit channel number is 0 or 1. -/
theorem channel_cases (c : Bit) : c = 0 ∨ c = 1 := by
  have h := c.isLt
  rcases (show c.toNat = 0 ∨ c.toNat = 1 by omega) with h0 | h1
  · exact .inl (BitVec.eq_of_toNat_eq h0)
  · exact .inr (BitVec.eq_of_toNat_eq h1)

/-- The channel that was written reads the new value. -/
@[simp] theorem channelGet_set_same {w : Nat} (c : Bit) (v r0 r1 : BitVec w) :
    channelGet c (channelSet0 c v r0) (channelSet1 c v r1) = v := by
  unfold channelGet channelSet0 channelSet1; split <;> rfl

/-- The other channel reads what it held. -/
theorem channelGet_set_other {w : Nat} (c d : Bit) (v r0 r1 : BitVec w) (h : d ≠ c) :
    channelGet d (channelSet0 c v r0) (channelSet1 c v r1) = channelGet d r0 r1 := by
  rcases channel_cases c with rfl | rfl <;> rcases channel_cases d with rfl | rfl <;>
    simp_all [channelGet, channelSet0, channelSet1]

end Sys2Proof.Machine
end

