-- ==== Sys2Proof/Laws/PerInstr.lean ====
section
/-! SUPPORT. A statement about every instruction as syntax, one lemma per constructor. -/

namespace Sys2Proof.Laws.OpcodeListed

/-- `OP[7:4]` of a unit's commands (R53). -/
def unitField : Machine.Unit5 → Nat
  | .clu => 1
  | .a4d => 2
  | .a4e => 3
  | .s2d => 4
  | .s2e => 5

/-- The command that stands for an instruction has an opcode of R54, whose unit field names the instruction's unit (R53). -/
def Statement (i : Instr) : Prop :=
  (encode i).op ∈ Machine.listedOpcodes
    ∧ (encode i).op.toNat / 16 = unitField (Machine.unitOf i)

/-- The statement from an instruction's row of R54. -/
theorem of_row {i : Instr} (op : Opcode) (u : Machine.Unit5) (hop : (encode i).op = op) (hu : Machine.unitOf i = u)
    (listed : op ∈ Machine.listedOpcodes) (field : op.toNat / 16 = unitField u) : Statement i := by
  rw [Statement, hop, hu]
  exact ⟨listed, field⟩

theorem cluClamp16 (x : Int) : Statement (.cluClamp16 x) := of_row 0x10 .clu rfl rfl (by decide) (by decide)
theorem cluClamp (x lo hi : Int) : Statement (.cluClamp x lo hi) := of_row 0x11 .clu rfl rfl (by decide) (by decide)
theorem a4dInit : Statement .a4dInit := of_row 0x20 .a4d rfl rfl (by decide) (by decide)
theorem a4dLoad (p : Int) (i : Nat) : Statement (.a4dLoad p i) := of_row 0x21 .a4d rfl rfl (by decide) (by decide)
theorem a4dRead : Statement .a4dRead := of_row 0x22 .a4d rfl rfl (by decide) (by decide)
theorem a4dSym (n : Nibble) : Statement (.a4dSym n) := of_row 0x23 .a4d rfl rfl (by decide) (by decide)
theorem a4dByte (b : Byte) : Statement (.a4dByte b) := of_row 0x24 .a4d rfl rfl (by decide) (by decide)
theorem a4dHigh (b : Byte) : Statement (.a4dHigh b) := of_row 0x25 .a4d rfl rfl (by decide) (by decide)
theorem a4eInit : Statement .a4eInit := of_row 0x30 .a4e rfl rfl (by decide) (by decide)
theorem a4eLoad (p : Int) (i : Nat) (q : Nibble) (h : Bit) : Statement (.a4eLoad p i q h) :=
  of_row 0x31 .a4e rfl rfl (by decide) (by decide)
theorem a4eRead : Statement .a4eRead := of_row 0x32 .a4e rfl rfl (by decide) (by decide)
theorem a4eSym (x : Int) : Statement (.a4eSym x) := of_row 0x33 .a4e rfl rfl (by decide) (by decide)
theorem a4ePush (x : Int) : Statement (.a4ePush x) := of_row 0x34 .a4e rfl rfl (by decide) (by decide)
theorem a4eFlush : Statement .a4eFlush := of_row 0x35 .a4e rfl rfl (by decide) (by decide)
theorem s2dInit (k : Nat) : Statement (.s2dInit k) := of_row 0x40 .s2d rfl rfl (by decide) (by decide)
theorem s2dLoad (p : Int) (c q : Bit) : Statement (.s2dLoad p c q) := of_row 0x41 .s2d rfl rfl (by decide) (by decide)
theorem s2dRead : Statement .s2dRead := of_row 0x42 .s2d rfl rfl (by decide) (by decide)
theorem s2dByte (b : Byte) : Statement (.s2dByte b) := of_row 0x43 .s2d rfl rfl (by decide) (by decide)
theorem s2eInit (k : Nat) : Statement (.s2eInit k) := of_row 0x50 .s2e rfl rfl (by decide) (by decide)
theorem s2eLoad (p : Int) (c q f : Bit) : Statement (.s2eLoad p c q f) := of_row 0x51 .s2e rfl rfl (by decide) (by decide)
theorem s2eRead : Statement .s2eRead := of_row 0x52 .s2e rfl rfl (by decide) (by decide)
theorem s2eSample (x : Int) : Statement (.s2eSample x) := of_row 0x53 .s2e rfl rfl (by decide) (by decide)

end Sys2Proof.Laws.OpcodeListed
end

