-- ==== Sys2Proof/Laws/State.lean ====
section
/-! SUPPORT. What each named update of the state leaves in each field, so that no later proof unfolds a record update. -/

namespace Sys2Proof.Machine

@[simp] theorem State.withA4d_a4d (s : State) (v : A4dRegs) : (s.withA4d v).a4d = v := rfl
@[simp] theorem State.withA4d_a4e (s : State) (v : A4dRegs) : (s.withA4d v).a4e = s.a4e := rfl
@[simp] theorem State.withA4d_s2d (s : State) (v : A4dRegs) : (s.withA4d v).s2d = s.s2d := rfl
@[simp] theorem State.withA4d_s2e (s : State) (v : A4dRegs) : (s.withA4d v).s2e = s.s2e := rfl
@[simp] theorem State.withA4d_port (s : State) (v : A4dRegs) : (s.withA4d v).port = s.port := rfl
@[simp] theorem State.withA4d_rsp (s : State) (v : A4dRegs) : (s.withA4d v).rsp = s.rsp := rfl

@[simp] theorem State.withA4e_a4d (s : State) (v : A4eRegs) : (s.withA4e v).a4d = s.a4d := rfl
@[simp] theorem State.withA4e_a4e (s : State) (v : A4eRegs) : (s.withA4e v).a4e = v := rfl
@[simp] theorem State.withA4e_s2d (s : State) (v : A4eRegs) : (s.withA4e v).s2d = s.s2d := rfl
@[simp] theorem State.withA4e_s2e (s : State) (v : A4eRegs) : (s.withA4e v).s2e = s.s2e := rfl
@[simp] theorem State.withA4e_port (s : State) (v : A4eRegs) : (s.withA4e v).port = s.port := rfl
@[simp] theorem State.withA4e_rsp (s : State) (v : A4eRegs) : (s.withA4e v).rsp = s.rsp := rfl

@[simp] theorem State.withS2d_a4d (s : State) (v : S2dRegs) : (s.withS2d v).a4d = s.a4d := rfl
@[simp] theorem State.withS2d_a4e (s : State) (v : S2dRegs) : (s.withS2d v).a4e = s.a4e := rfl
@[simp] theorem State.withS2d_s2d (s : State) (v : S2dRegs) : (s.withS2d v).s2d = v := rfl
@[simp] theorem State.withS2d_s2e (s : State) (v : S2dRegs) : (s.withS2d v).s2e = s.s2e := rfl
@[simp] theorem State.withS2d_port (s : State) (v : S2dRegs) : (s.withS2d v).port = s.port := rfl
@[simp] theorem State.withS2d_rsp (s : State) (v : S2dRegs) : (s.withS2d v).rsp = s.rsp := rfl

@[simp] theorem State.withS2e_a4d (s : State) (v : S2eRegs) : (s.withS2e v).a4d = s.a4d := rfl
@[simp] theorem State.withS2e_a4e (s : State) (v : S2eRegs) : (s.withS2e v).a4e = s.a4e := rfl
@[simp] theorem State.withS2e_s2d (s : State) (v : S2eRegs) : (s.withS2e v).s2d = s.s2d := rfl
@[simp] theorem State.withS2e_s2e (s : State) (v : S2eRegs) : (s.withS2e v).s2e = v := rfl
@[simp] theorem State.withS2e_port (s : State) (v : S2eRegs) : (s.withS2e v).port = s.port := rfl
@[simp] theorem State.withS2e_rsp (s : State) (v : S2eRegs) : (s.withS2e v).rsp = s.rsp := rfl

@[simp] theorem State.withPort_a4d (s : State) (v : List Input) : (s.withPort v).a4d = s.a4d := rfl
@[simp] theorem State.withPort_a4e (s : State) (v : List Input) : (s.withPort v).a4e = s.a4e := rfl
@[simp] theorem State.withPort_s2d (s : State) (v : List Input) : (s.withPort v).s2d = s.s2d := rfl
@[simp] theorem State.withPort_s2e (s : State) (v : List Input) : (s.withPort v).s2e = s.s2e := rfl
@[simp] theorem State.withPort_port (s : State) (v : List Input) : (s.withPort v).port = v := rfl
@[simp] theorem State.withPort_rsp (s : State) (v : List Input) : (s.withPort v).rsp = s.rsp := rfl

@[simp] theorem State.withRsp_a4d (s : State) (v : Option Response) : (s.withRsp v).a4d = s.a4d := rfl
@[simp] theorem State.withRsp_a4e (s : State) (v : Option Response) : (s.withRsp v).a4e = s.a4e := rfl
@[simp] theorem State.withRsp_s2d (s : State) (v : Option Response) : (s.withRsp v).s2d = s.s2d := rfl
@[simp] theorem State.withRsp_s2e (s : State) (v : Option Response) : (s.withRsp v).s2e = s.s2e := rfl
@[simp] theorem State.withRsp_port (s : State) (v : Option Response) : (s.withRsp v).port = s.port := rfl
@[simp] theorem State.withRsp_rsp (s : State) (v : Option Response) : (s.withRsp v).rsp = v := rfl

/-- A command that completes leaves exactly its result on the response bus. -/
@[simp] theorem complete_eq (y : Word) (s : State) : complete y s = .next (s.withRsp (some ⟨y, 0⟩)) := rfl

/-- Raising `InvalidArgument` leaves exactly the error response. -/
@[simp] theorem raiseInvalidArgument_eq (s : State) : raiseInvalidArgument s = .next (s.withRsp (some ⟨0, 1⟩)) := rfl

/-- Raising `IllegalOp` leaves exactly the error response. -/
@[simp] theorem raiseIllegalOp_eq (s : State) : raiseIllegalOp s = .next (s.withRsp (some ⟨0, 2⟩)) := rfl

end Sys2Proof.Machine
end

