-- ==== Sys2Proof/Laws/Traces.lean ====
section
/-! SUPPORT. The equations of running instructions one after another, and what A4D's registers hold after an update (R80). -/

namespace Sys2Proof.Machine

/-- The step index of a freshly written A4D is the one of its pair, where that is in range. -/
theorem a4dWrite_idx (st : Int × Nat) (h : st.2 ≤ 88) : (a4dWrite st).idx.toNat = st.2 := by
  simp only [a4dWrite, BitVec.toNat_ofNat]
  exact Nat.mod_eq_of_lt (by omega)

/-- Every entry of `STEP_TABLE` fits the 16 bits of `STEP` (R22, R23). -/
theorem stepTable_fits : ∀ v ∈ stepTable, v < 2 ^ 16 := by decide

/-- `STEP` agrees with an index in range (R22, R80 (a)). -/
theorem stepAgrees_of_idx_le (r : A4dRegs) (h : r.idx.toNat ≤ 88) : r.StepAgrees := by
  have hlt : r.idx.toNat < stepTable.length := by
    have : stepTable.length = 89 := by decide
    omega
  have hfit := stepTable_fits _ (List.getElem_mem hlt)
  refine ⟨h, ?_⟩
  simp only [stepField, stepSize, List.getElem?_eq_getElem hlt, BitVec.toNat_ofNat, Nat.mod_eq_of_lt hfit]

/-- After `ADP4_UPDATE` the index is in range and `STEP` agrees with it (R72, R73, R80 (a)). -/
theorem stepAgrees_a4dWrite_adp4Update (st : Int × Nat) (n : Nibble) : (a4dWrite (adp4Update st n)).StepAgrees :=
  stepAgrees_of_idx_le _ (by rw [a4dWrite_idx _ (adp4Update_mem st n).2]; exact (adp4Update_mem st n).2)

/-- Running no instruction leaves no state. -/
@[simp] theorem execTrace_nil (s : State) : execTrace [] s = [] := rfl

/-- Running no instruction emits no sample. -/
@[simp] theorem emittedSamples_nil (s : State) : emittedSamples [] s = [] := rfl

/-- Running an instruction that answers a next state goes on from that state. -/
theorem execTrace_cons {i : Instr} {s t : State} (rest : List Instr) (h : exec i s = .next t) :
    execTrace (i :: rest) s = t :: execTrace rest t := by
  simp [execTrace, h]

/-- The samples of a run are those of its first response followed by those of the rest. -/
theorem emittedSamples_cons {i : Instr} {s t : State} {r : Response} (rest : List Instr) (h : exec i s = .next t)
    (hr : t.rsp = some r) : emittedSamples (i :: rest) s = samplesIn i r ++ emittedSamples rest t := by
  simp [emittedSamples, h, hr]

end Sys2Proof.Machine
end

