-- ==== Sys2Proof/Tests/Slice0.lean ====
section
/-! SUPPORT. The model's own tests, each expected value from spec/95_test_vectors.md, from the example of the rule it names, or
worked out from that rule by hand; and for every obligation that has hypotheses a witness that meets them. -/

namespace Sys2Proof.Tests
open Sys2Proof.Machine

/-! ### Decoding: one command of every row of R54, its fields placed as R62 places them, with some ignored bits set (R51) -/

theorem test_decode_cluClamp16 : decode ⟨0b00010000, 0xFFFFFFFFFFFF63C0, 7, 7⟩ = .ok (.cluClamp16 (-40000)) := by decide
theorem test_decode_cluClamp : decode ⟨0b00010001, 5, 10, 0xFFFFFFFFFFFFFFFF⟩ = .ok (.cluClamp 5 10 (-1)) := by decide
theorem test_decode_a4dInit : decode ⟨0b00100000, 9, 9, 9⟩ = .ok .a4dInit := by decide
theorem test_decode_a4dLoad : decode ⟨0b00100001, 0x1FFFB, 0x158, 9⟩ = .ok (.a4dLoad (-5) 88) := by decide
theorem test_decode_a4dRead : decode ⟨0b00100010, 0, 0, 0⟩ = .ok .a4dRead := by decide
theorem test_decode_a4dSym : decode ⟨0b00100011, 0x1D, 0, 0⟩ = .ok (.a4dSym 0xD) := by decide
theorem test_decode_a4dByte : decode ⟨0b00100100, 0x17F, 0, 0⟩ = .ok (.a4dByte 0x7F) := by decide
theorem test_decode_a4dHigh : decode ⟨0b00100101, 0x170, 0, 0⟩ = .ok (.a4dHigh 0x70) := by decide
theorem test_decode_a4eInit : decode ⟨0b00110000, 0, 0, 0⟩ = .ok .a4eInit := by decide
theorem test_decode_a4eLoad : decode ⟨0b00110001, 0x8000, 0xFF, 0x1F7⟩ = .ok (.a4eLoad (-32768) 255 7 1) := by decide
theorem test_decode_a4eLoad_idle : decode ⟨0b00110001, 11, 8, 0x2EF⟩ = .ok (.a4eLoad 11 8 0xF 0) := by decide
theorem test_decode_a4eRead : decode ⟨0b00110010, 0, 0, 0⟩ = .ok .a4eRead := by decide
theorem test_decode_a4eSym : decode ⟨0b00110011, 0x7FFF, 0, 0⟩ = .ok (.a4eSym 32767) := by decide
theorem test_decode_a4ePush : decode ⟨0b00110100, 0xFFFFFFFFFFFFFC18, 0, 0⟩ = .ok (.a4ePush (-1000)) := by decide
theorem test_decode_a4eFlush : decode ⟨0b00110101, 0, 0, 0⟩ = .ok .a4eFlush := by decide
theorem test_decode_s2dInit : decode ⟨0b01000000, 0x101, 0, 0⟩ = .ok (.s2dInit 1) := by decide
theorem test_decode_s2dLoad : decode ⟨0b01000001, 500, 2, 3⟩ = .ok (.s2dLoad 500 0 1) := by decide
theorem test_decode_s2dRead : decode ⟨0b01000010, 0, 0, 0⟩ = .ok .s2dRead := by decide
theorem test_decode_s2dByte : decode ⟨0b01000011, 0x1FF, 0, 0⟩ = .ok (.s2dByte 0xFF) := by decide
theorem test_decode_s2eInit : decode ⟨0b01010000, 2, 0, 0⟩ = .ok (.s2eInit 2) := by decide
theorem test_decode_s2eLoad : decode ⟨0b01010001, 72, 1, 0x300⟩ = .ok (.s2eLoad 72 1 0 1) := by decide
theorem test_decode_s2eRead : decode ⟨0b01010010, 0, 0, 0⟩ = .ok .s2eRead := by decide
theorem test_decode_s2eSample : decode ⟨0b01010011, 0x8300, 0, 0⟩ = .ok (.s2eSample (-32000)) := by decide

/-- V9: the reserved opcodes the vectors list decode to nothing. -/
theorem test_decode_reserved :
    ∀ op ∈ ([0x00, 0x01, 0x0F, 0x12, 0x1F, 0x26, 0x2F, 0x36, 0x44, 0x54, 0x60, 0xFF] : List Opcode),
      decode ⟨op, 0, 0, 0⟩ = .error (.reservedOpcode op) := by decide

/-- The table numbers `OP` in bits 7..0 (spec/opcode_table.json); the buses follow as log 4 says. -/
theorem test_decodeTableWord : decodeTableWord 8 0x53 = some (.s2eSample 0) ∧ decodeTableWord 8 0x2F = none
    ∧ decodeTableWord 72 0x6430 = some .a4eInit ∧ decodeTableWord 72 0x6453 = some (.s2eSample 100) := by decide

/-! ### WellFormed refuses each operand that its field cannot hold (R13, R62) -/

theorem test_illFormed_clamp16 : (Instr.cluClamp16 (2 ^ 63)).wellFormed = false := by decide
theorem test_illFormed_clamp_x : (Instr.cluClamp (-(2 ^ 63) - 1) 0 0).wellFormed = false := by decide
theorem test_illFormed_clamp_lo : (Instr.cluClamp 0 (2 ^ 63) 0).wellFormed = false := by decide
theorem test_illFormed_clamp_hi : (Instr.cluClamp 0 0 (2 ^ 63)).wellFormed = false := by decide
theorem test_illFormed_a4dLoad_p : (Instr.a4dLoad 32768 0).wellFormed = false := by decide
theorem test_illFormed_a4dLoad_i : (Instr.a4dLoad 0 256).wellFormed = false := by decide
theorem test_illFormed_a4eLoad_p : (Instr.a4eLoad (-32769) 0 0 0).wellFormed = false := by decide
theorem test_illFormed_a4eLoad_i : (Instr.a4eLoad 0 256 0 0).wellFormed = false := by decide
theorem test_illFormed_a4eSym : (Instr.a4eSym 32768).wellFormed = false := by decide
theorem test_illFormed_a4ePush : (Instr.a4ePush (-32769)).wellFormed = false := by decide
theorem test_illFormed_s2dInit : (Instr.s2dInit 256).wellFormed = false := by decide
theorem test_illFormed_s2dLoad : (Instr.s2dLoad 32768 0 0).wellFormed = false := by decide
theorem test_illFormed_s2eInit : (Instr.s2eInit 256).wellFormed = false := by decide
theorem test_illFormed_s2eLoad : (Instr.s2eLoad (-32769) 0 0 0).wellFormed = false := by decide
theorem test_illFormed_s2eSample : (Instr.s2eSample 32768).wellFormed = false := by decide
theorem test_wellFormed_edges : (Instr.cluClamp (-(2 ^ 63)) (2 ^ 63 - 1) 0).wellFormed = true
    ∧ (Instr.a4dLoad (-32768) 255).wellFormed = true ∧ (Instr.s2eSample 32767).wellFormed = true := by decide

/-! ### One step of each instruction -/

/-- The state after one command presented to a state, where the step answers one. -/
def after (op : Opcode) (a b c : Word) (s : State) : Option State :=
  match step (s.present ⟨op, a, b, c⟩) with
  | .next t => some t
  | .fault _ => none
  | .refused _ => none

/-- The response to one command presented to a state. -/
def answer (op : Opcode) (a b c : Word) (s : State) : Option (Word × BitVec 2) :=
  ((after op a b c s).bind State.rsp).map (fun r => (r.y, r.err))

/-- The reset state with A4D's registers replaced. -/
def a4dAt (p : BitVec 16) (i : BitVec 7) : State := State.reset.withA4d ⟨p, i⟩

/-- The reset state with A4E's registers replaced. -/
def a4eAt (p : BitVec 16) (i : BitVec 7) (h : Bit) (q : Nibble) : State := State.reset.withA4e ⟨p, i, h, q⟩

/-- The reset state with S2D's registers replaced. -/
def s2dAt (n : BitVec 2) (c : Bit) (p0 p1 : BitVec 16) : State := State.reset.withS2d ⟨n, c, p0, p1⟩

/-- The reset state with S2E's registers replaced. -/
def s2eAt (n : BitVec 2) (c : Bit) (p0 p1 : BitVec 16) (f0 f1 : Bit) : State := State.reset.withS2e ⟨n, c, p0, p1, f0, f1⟩

-- R140
theorem test_clamp16_low : answer 0x10 0xFFFFFFFFFFFF63C0 0 0 State.reset = some (0xFFFFFFFFFFFF8000, 0) := by decide
-- P3, command 11
theorem test_clamp16_high : answer 0x10 0x7FFFFFFFFFFFFFFF 0 0 State.reset = some (0x7FFF, 0) := by decide
-- R141
theorem test_clamp_crossed : answer 0x11 20 10 0 State.reset = some (0, 0) := by decide
theorem test_clamp_ordered : answer 0x11 100 0 88 State.reset = some (88, 0) := by decide
-- R74
theorem test_a4dInit : (after 0x20 0 0 0 (a4dAt 5 88)).map State.a4d = some ⟨0, 0⟩ := by decide
-- R75
theorem test_a4dLoad : (after 0x21 0xFFFB 0x58 0 State.reset).map State.a4d = some ⟨0xFFFB, 88⟩ := by decide
-- P3, command 5
theorem test_a4dLoad_rejects : after 0x21 0 0x59 0 (a4dAt 5 8) = some ((a4dAt 5 8).withRsp (some ⟨0, 1⟩)) := by decide
-- R75
theorem test_a4dRead : answer 0x22 0 0 0 (a4dAt 0xFFFB 88) = some (0x0000007FFF58FFFB, 0) := by decide
-- R77
theorem test_a4dSym : after 0x23 7 0 0 State.reset = some ((a4dAt 11 8).withRsp (some ⟨11, 0⟩)) := by decide
-- P3, command 9
theorem test_a4dSym_negative : answer 0x23 0xF 0 0 (a4dAt 0x7FFF 88) = some (0xFFFFFFFFFFFF9003, 0) := by decide
-- R78
theorem test_a4dByte : after 0x24 0x77 0 0 State.reset = some ((a4dAt 41 16).withRsp (some ⟨0x29000B, 0⟩)) := by decide
-- P1, command 8
theorem test_a4dByte_order : answer 0x24 0x7F 0 0 State.reset = some (0x00000000FFED000B, 0) := by decide
-- R79
theorem test_a4dHigh : after 0x25 0x7F 0 0 State.reset = some ((a4dAt 11 8).withRsp (some ⟨11, 0⟩)) := by decide
-- R87
theorem test_a4eInit : (after 0x30 0 0 0 (a4eAt 5 88 1 9)).map State.a4e = some ⟨0, 0, 0, 0⟩ := by decide
-- P4, command 7
theorem test_a4eLoad : (after 0x31 11 8 0x107 State.reset).map State.a4e = some ⟨11, 8, 1, 7⟩ := by decide
-- R88: with `h = 0` the nibble is ignored
theorem test_a4eLoad_idle : (after 0x31 11 8 0x007 (a4eAt 0 0 1 3)).map State.a4e = some ⟨11, 8, 0, 0⟩ := by decide
-- R89
theorem test_a4eRead : answer 0x32 0 0 0 (a4eAt 11 8 1 7) = some (0x000107001008000B, 0) := by decide
-- R90
theorem test_a4eSym : answer 0x33 0xFC18 0 0 State.reset = some (0x00000000FFF5000F, 0) := by decide
theorem test_a4eSym_saturates : answer 0x33 0x8000 0 0 (a4eAt 0x7FFF 88 0 0) = some (0x00000000F001000C, 0) := by decide
-- R91
theorem test_a4ePush_first : after 0x34 1000 0 0 State.reset = some ((a4eAt 11 8 1 7).withRsp (some ⟨0xB7000, 0⟩)) := by decide
theorem test_a4ePush_second :
    after 0x34 1000 0 0 (a4eAt 11 8 1 7) = some ((a4eAt 41 16 0 0).withRsp (some ⟨0x297177, 0⟩)) := by decide
-- R92
theorem test_a4eFlush : after 0x35 0 0 0 (a4eAt 11 8 1 7) = some ((a4eAt 11 8 0 0).withRsp (some ⟨0x170, 0⟩)) := by decide
theorem test_a4eFlush_empty : after 0x35 0 0 0 (a4eAt 11 8 0 0) = some ((a4eAt 11 8 0 0).withRsp (some ⟨0, 0⟩)) := by decide
-- R105
theorem test_s2dInit : (after 0x40 0x102 0 0 (s2dAt 1 0 9 0)).map State.s2d = some ⟨2, 0, 0, 0⟩ := by decide
theorem test_s2dInit_rejects : after 0x40 3 0 0 (s2dAt 2 1 9 8) = some ((s2dAt 2 1 9 8).withRsp (some ⟨0, 1⟩)) := by decide
-- R106
theorem test_s2dLoad : (after 0x41 500 1 0 (s2dAt 2 1 9 8)).map State.s2d = some ⟨2, 0, 9, 500⟩ := by decide
-- P3, command 4
theorem test_s2dLoad_rejects : after 0x41 0 1 0 State.reset = some (State.reset.withRsp (some ⟨0, 1⟩)) := by decide
-- P2, command 12
theorem test_s2dRead : answer 0x42 0 0 0 (s2dAt 2 0 104 0xFFA0) = some (0x00020000FFA00068, 0) := by decide
-- R108
theorem test_s2dByte : answer 0x43 0x81 0 0 (s2dAt 1 0 144 0) = some (0xFFFFFFFFFFFF8090, 0) := by decide
-- P2, command 9
theorem test_s2dByte_channel1 :
    after 0x43 0xF8 0 0 (s2dAt 2 1 72 0) = some ((s2dAt 2 0 72 0xFF80).withRsp (some ⟨0xFFFFFFFFFFFFFF80, 0⟩)) := by decide
-- R123
theorem test_s2eInit : (after 0x50 2 0 0 (s2eAt 1 0 9 0 1 0)).map State.s2e = some ⟨2, 0, 0, 0, 0, 0⟩ := by decide
theorem test_s2eInit_rejects : answer 0x50 0 0 0 State.reset = some (0, 1) := by decide
-- R124
theorem test_s2eLoad : (after 0x51 72 0 0x100 State.reset).map State.s2e = some ⟨1, 0, 72, 0, 1, 0⟩ := by decide
theorem test_s2eLoad_rejects : answer 0x51 72 0 1 State.reset = some (0, 1) := by decide
-- P2, command 6
theorem test_s2eRead : answer 0x52 0 0 0 (s2eAt 2 0 104 0xFFA0 1 1) = some (0x00020003FFA00068, 0) := by decide
-- P2, command 3
theorem test_s2eSample_first : after 0x53 0xFF9C 0 0 (s2eAt 2 1 72 0 1 0)
    = some ((s2eAt 2 0 72 0xFF80 1 1).withRsp (some ⟨0x00000100FF8000F8, 0⟩)) := by decide +kernel
-- P5, command 3: the guard fires and the search brings the code back
theorem test_s2eSample_guard : answer 0x53 0x7FFF 0 0 (s2eAt 1 0 31752 0 1 0) = some (0x000000007FD00017, 0) := by decide +kernel
-- V9
theorem test_reserved : after 0x44 5 6 7 (s2dAt 2 1 9 8) = some ((s2dAt 2 1 9 8).withRsp (some ⟨0, 2⟩)) := by decide
-- R180, R185
theorem test_idle : step (a4dAt 5 8) = .next (a4dAt 5 8) := rfl
theorem test_reset : step ((a4dAt 5 8).withPort [.reset]) = .next State.reset := rfl

/-! ### SDX2 functions -/

-- V7: the two rows that tell a model with the guard from one without, the skipped delta mode, and a tie
theorem test_enc_guard : sdx2Enc 30958 29000 1 = 0x1F ∧ sdx2Enc 31225 29000 1 = 0x21 := by decide +kernel
theorem test_enc_skip : sdx2Enc (-32768) 32720 1 = 0x80 := by decide +kernel
theorem test_enc_tie : sdx2Enc (-186) (-300) 1 = 0xF6 := by decide +kernel
-- R115
theorem test_rsq : rsq 4 = 1 ∧ rsq 5 = 2 ∧ rsq 12 = 2 ∧ rsq 13 = 3 ∧ rsq 112 = 7 ∧ rsq 113 = 8 := by decide +kernel

/-! ### Streams (V8) -/

/-- The output sequence of a stream procedure that completes. -/
def outputOf {α : Type} (r : StreamResult α) : Option (List α) :=
  match r with
  | .done out _ => some out
  | .invalidArgument _ => none
  | .stopped => none

theorem test_adp4_encode : outputOf (adp4EncodeFresh [1000, -1000, 500] 2 State.reset) = some [0x7F, 0x70] := by decide +kernel
theorem test_adp4_decode : outputOf (adp4DecodeFresh [0x7F, 0x7F] 3 3 State.reset) = some [11, -19, 44] := by decide +kernel
theorem test_adp4_short : adp4Decode [0x7F] 3 3 State.reset = .invalidArgument State.reset := by decide
theorem test_sdx2_encode : outputOf (sdx2EncodeFresh [100, -100, 100, -100, 1000, -1000] 2 6 State.reset)
    = some [0x06, 0xF8, 0x05, 0x05, 0x16, 0xEA] := by decide +kernel
theorem test_sdx2_decode : outputOf (sdx2DecodeFresh [0x06, 0xF8, 0x05, 0x05, 0x16, 0xEA] 2 6 State.reset)
    = some [72, -128, 104, -96, 968, -968] := by decide +kernel
theorem test_sdx2_channels : outputOf (sdx2EncodeFresh [0] 3 1 State.reset) = none := by decide

/-! ### Witnesses: concrete inputs that meet the hypotheses of each obligation, clause by clause, at the edges of their ranges -/

/-- A state with commands presented. -/
def asked (k : Command) : State := (s2dAt 2 1 9 8).withPort [.command k, .reset]

theorem witness_DecodeEncodeWellFormed : (Instr.a4eLoad (-32768) 255 0xF 1).wellFormed = true
    ∧ (Instr.cluClamp (2 ^ 63 - 1) (-(2 ^ 63)) 0).wellFormed = true := by decide
theorem witness_DecodedIsWellFormed : decode ⟨0x31, 0x8000, 0xFF, 0x10F⟩ = .ok (.a4eLoad (-32768) 255 0xF 1) := by decide
theorem witness_ReservedOpcodeRaisesIllegalOp :
    (⟨0xFF, 1, 2, 3⟩ : Command).op ∉ listedOpcodes ∧ (asked ⟨0xFF, 1, 2, 3⟩).port = .command ⟨0xFF, 1, 2, 3⟩ :: [.reset] := by
  decide
theorem witness_StepRunsDecodedCommand :
    ((asked ⟨0x24, 0x7F, 0, 0⟩).port = .command ⟨0x24, 0x7F, 0, 0⟩ :: [.reset] ∧ decode ⟨0x24, 0x7F, 0, 0⟩ = .ok (.a4dByte 0x7F))
    ∧ ((Instr.s2eSample (-32768)).wellFormed = true
      ∧ (asked (encode (.s2eSample (-32768)))).port = .command (encode (.s2eSample (-32768))) :: [.reset])
    ∧ decodeTableWord 8 0x25 = some (.a4dHigh 0) := by decide
theorem witness_IdleKeepsEveryRegister : (a4eAt 0x8000 88 1 0xF).port = [] := by decide
theorem witness_ResetInputResetsEveryRegister :
    ((a4eAt 0x8000 88 1 0xF).withPort [.reset, .command ⟨0x32, 0, 0, 0⟩]).port = .reset :: [.command ⟨0x32, 0, 0, 0⟩] := by decide
theorem witness_LegalRegistersAreKept : (asked ⟨0x43, 0x7F, 0, 0⟩).Legal ∧ (a4dAt 0x8000 88).Legal
    ∧ (step (asked ⟨0x43, 0x7F, 0, 0⟩) = .next ((s2dAt 2 0 9 31760).withPort [.reset] |>.withRsp (some ⟨31760, 0⟩))) :=
  ⟨by decide, by decide, rfl⟩
theorem witness_PackerAndMonoStayTidy : (a4eAt 11 8 1 7).Legal ∧ (a4eAt 11 8 1 7).PackerTidy ∧ (a4eAt 11 8 1 7).MonoTidy
    ∧ (a4eAt 11 8 0 0).PackerTidy ∧ (s2dAt 1 0 9 0).MonoTidy
    ∧ step ((a4eAt 11 8 1 7).withPort [.command ⟨0x35, 0, 0, 0⟩]) = .next ((a4eAt 11 8 0 0).withRsp (some ⟨0x170, 0⟩)) :=
  ⟨by decide, by decide, by decide, by decide, by decide, rfl⟩
theorem witness_ErrorCodesAndNoPartialEffect : (asked ⟨0x41, 0, 1, 0⟩).port = .command ⟨0x41, 0, 1, 0⟩ :: [.reset] := by decide

/-- Each row of R171, just inside and just outside what it rejects. -/
theorem witness_InvalidArgumentExactlyWhereListed :
    (rejects (.a4dLoad 0 89) State.reset ∧ ¬ rejects (.a4dLoad 0 88) State.reset)
    ∧ (rejects (.a4eLoad 0 89 0 0) State.reset ∧ ¬ rejects (.a4eLoad 0 88 0 0) State.reset)
    ∧ (rejects (.s2dInit 0) State.reset ∧ rejects (.s2dInit 3) State.reset
      ∧ ¬ rejects (.s2dInit 1) State.reset ∧ ¬ rejects (.s2dInit 2) State.reset)
    ∧ (rejects (.s2eInit 0) State.reset ∧ rejects (.s2eInit 3) State.reset
      ∧ ¬ rejects (.s2eInit 1) State.reset ∧ ¬ rejects (.s2eInit 2) State.reset)
    ∧ (rejects (.s2dLoad 0 1 0) State.reset ∧ rejects (.s2dLoad 0 0 1) State.reset
      ∧ ¬ rejects (.s2dLoad 0 0 0) State.reset ∧ ¬ rejects (.s2dLoad 0 1 1) (s2dAt 2 0 0 0))
    ∧ (rejects (.s2eLoad 0 1 0 1) State.reset ∧ rejects (.s2eLoad 0 0 1 0) State.reset
      ∧ ¬ rejects (.s2eLoad 0 0 0 1) State.reset ∧ ¬ rejects (.s2eLoad 0 1 1 0) (s2eAt 2 0 0 0 0 0))
    ∧ ¬ rejects .a4eFlush State.reset := by
  simp only [rejects]; decide

theorem witness_UnitsAreIndependent :
    (∃ t, exec (.a4dSym 7) State.reset = .next t)
    ∧ (sameUnit (unitOf (.a4dSym 7)) State.reset (s2eAt 2 1 9 8 1 1)
      ∧ ∃ t t', exec (.a4dSym 7) State.reset = .next t ∧ exec (.a4dSym 7) (s2eAt 2 1 9 8 1 1) = .next t')
    ∧ (unitOf (.a4dSym 7) ≠ unitOf (.a4eSym 1000)
      ∧ ∃ si sij sj sji, exec (.a4dSym 7) State.reset = .next si ∧ exec (.a4eSym 1000) si = .next sij
        ∧ exec (.a4eSym 1000) State.reset = .next sj ∧ exec (.a4dSym 7) sj = .next sji) :=
  ⟨⟨_, rfl⟩, ⟨rfl, _, _, rfl, rfl⟩, by decide, _, _, _, _, rfl, rfl, rfl, rfl⟩

theorem witness_RegistersACommandLeavesAlone :
    (∃ t, exec .a4eRead State.reset = .next t) ∧ (∃ t, exec (.cluClamp 5 10 0) State.reset = .next t)
    ∧ (∃ t, exec (.a4eSym (-32768)) (a4eAt 0x7FFF 88 1 7) = .next t) ∧ (∃ t, exec .a4eFlush (a4eAt 11 8 1 7) = .next t)
    ∧ (∃ t, exec (.s2dLoad 500 1 0) (s2dAt 2 1 9 8) = .next t) ∧ (∃ t, exec (.s2dByte 0xFF) (s2dAt 2 1 9 8) = .next t)
    ∧ (∃ t, exec (.s2eLoad 500 1 0 1) (s2eAt 2 1 9 8 0 1) = .next t)
    ∧ (∃ t, exec (.s2eSample 100) (s2eAt 2 1 9 8 0 1) = .next t) ∧ (0 : Bit) ≠ 1 :=
  ⟨⟨_, rfl⟩, ⟨_, rfl⟩, ⟨_, rfl⟩, ⟨_, rfl⟩, ⟨_, rfl⟩, ⟨_, rfl⟩, ⟨_, rfl⟩, ⟨_, rfl⟩, by decide⟩

/-- Ordered bounds, equal bounds and crossed bounds, at the ends of the operands' range. -/
theorem witness_CluClampArbitraryBounds :
    ((Instr.cluClamp (-(2 ^ 63)) (-(2 ^ 63)) (2 ^ 63 - 1)).wellFormed = true ∧ (-(2 ^ 63) : Int) ≤ 2 ^ 63 - 1)
    ∧ ((Instr.cluClamp 5 7 7).wellFormed = true ∧ (7 : Int) ≤ 7)
    ∧ ((Instr.cluClamp (2 ^ 63 - 1) 1 0).wellFormed = true ∧ (0 : Int) < 1) := by decide
theorem witness_ClampLaws : ((0 : Int) ≤ 88 ∧ (0 : Int) ≤ 0 ∧ (-1 : Int) ≤ 96) ∧ (0 : Int) < 10
    ∧ ((-32768 : Int) ≤ -32768 ∧ (32767 : Int) ≤ 32767 ∧ (-32768 : Int) ≤ 32767) := by decide
theorem witness_ClampArgumentRanges : isInt16 (-32768) ∧ isInt16 32767 ∧ 88 ≤ 88
    ∧ (-32768 : Int) ≤ -32768 ∧ (32768 : Int) ≤ 32768 := by decide
theorem witness_ReconstructedDifference : 7 ∈ stepTable ∧ 32767 ∈ stepTable := by decide
theorem witness_AdpStateTransition : stepTable[0]? = some 7 ∧ stepTable[88]? = some 32767 := by decide
theorem witness_QuantizerSubtractiveDivision :
    isInt16 (-32768) ∧ isInt16 32767 ∧ stepTable[0]? = some 7 ∧ stepTable[88]? = some 32767 := by decide
theorem witness_DecoderLoad : isInt16 (-32768) ∧ isInt16 32767 ∧ 88 ≤ 88 ∧ 88 < 89 := by decide
theorem witness_EncoderLoad : isInt16 (-32768) ∧ 88 ≤ 88 ∧ 88 < 89 ∧ (1 : Bit) = 1 ∧ (0 : Bit) = 0 := by decide
theorem witness_ReadCommandsReportEveryRegister : stepTable[(a4dAt 0x8000 88).a4d.idx.toNat]? = some 32767
    ∧ stepTable[(a4eAt 0x8000 0 1 7).a4e.idx.toNat]? = some 7 := by decide
theorem witness_PushPacksTwoSymbols : (a4eAt 11 8 0 0).a4e.phase = 0 ∧ (a4eAt 11 8 1 7).a4e.phase = 1 := by decide
theorem witness_FlushEmitsPendingNibble : (a4eAt 11 8 1 7).a4e.phase = 1 ∧ (a4eAt 11 8 0 0).a4e.phase = 0 := by decide
theorem witness_SdxReconstruction : (0x80 : Byte).toNat % 2 = 0 ∧ (0xFF : Byte).toNat % 2 = 1 := by decide
theorem witness_ExactModeSamples : (0x80 : Byte).toNat % 2 = 0
    ∧ (2 * (2 * (-64)) * |2 * (-64)| : Int) = 2 * (2 * (-64)) * |2 * (-64)| := by decide
theorem witness_RoundedRootOfHalf : ((0 : Nat) = 0 ∨ 2 * ((0 : Nat) : Int) * (0 : Nat) - 2 * (0 : Nat) < (0 : Nat))
    ∧ ((128 : Nat) = 0 ∨ 2 * ((128 : Nat) : Int) * (128 : Nat) - 2 * (128 : Nat) < (32513 : Nat)) ∧ 32513 ≤ 32768 := by decide
theorem witness_SignedRootCodes : (-32768 : Int) ≤ -32768 ∧ (-32768 : Int) ≤ 32768 ∧ (32768 : Int) ≤ 32768 := by decide

/-- Byte 0x7E has no neighbour above it and byte 0x80 none below (R120); 0x06 has both. -/
theorem witness_NeighbourSearch : (-128 ≤ (0x06 : Byte).toInt + 2 ∧ (0x06 : Byte).toInt + 2 ≤ 127)
    ∧ ¬ ((0x7E : Byte).toInt + 2 ≤ 127) ∧ ¬ (-128 ≤ (0x80 : Byte).toInt + -2)
    ∧ (sdx2Search 0x15 32767 31752).1 = 0x17 ∧ (sdx2Search 0xF9 5 100).1 = 0xFB ∧ (sdx2Search 0x09 (-280) (-300)).1 = 0x07 := by
  decide +kernel
theorem witness_OverflowGuard :
    (|(29968 : Int) + sdx2Sq (mval 0x09 - 4)| ≤ 30000 ∧ mval 0x01 = 0)
    ∧ ((30000 : Int) < |29000 + sdx2Sq (mval 0x1F)| ∧ 0 < mval 0x1F)
    ∧ ((30000 : Int) < |-29000 + sdx2Sq (mval 0xE1)| ∧ mval 0xE1 < 0) := by decide
theorem witness_EncoderChoosesSmallerError : (32767 : Int) < |-32768 - 0| ∧ |32767 - (0 : Int)| ≤ 32767 := by decide
theorem witness_SdxInitChannelCount : ((1 : Nat) = 1 ∨ (1 : Nat) = 2) ∧ ((2 : Nat) = 1 ∨ (2 : Nat) = 2)
    ∧ ((0 : Nat) ≠ 1 ∧ (0 : Nat) ≠ 2) ∧ ((3 : Nat) ≠ 1 ∧ (3 : Nat) ≠ 2) := by decide
theorem witness_SdxDecoderLoad : isInt16 (-32768)
    ∧ ((1 : Bit).toNat < (s2dAt 2 1 9 8).s2d.nch.toNat ∧ (0 : Bit).toNat < State.reset.s2d.nch.toNat)
    ∧ (State.reset.s2d.nch.toNat ≤ (1 : Bit).toNat ∨ State.reset.s2d.nch.toNat ≤ (0 : Bit).toNat) ∧ (0 : Bit) ≠ 1 := by decide
theorem witness_SdxEncoderLoad : isInt16 32767
    ∧ ((1 : Bit).toNat < (s2eAt 2 1 9 8 1 0).s2e.nch.toNat ∧ (0 : Bit).toNat < State.reset.s2e.nch.toNat)
    ∧ (State.reset.s2e.nch.toNat ≤ (0 : Bit).toNat ∨ State.reset.s2e.nch.toNat ≤ (1 : Bit).toNat) ∧ (0 : Bit) ≠ 1 := by decide
theorem witness_SdxDecodeOneByte : State.reset.s2d.nch.toNat = 1 ∧ (s2dAt 2 1 9 8).s2d.nch.toNat = 2 := by decide
theorem witness_SdxEncodeOneSample : State.reset.s2e.nch.toNat = 1 ∧ (s2eAt 2 1 9 8 1 0).s2e.nch.toNat = 2 := by decide
theorem witness_ChannelsAlternate : (s2dAt 2 0 9 8).Legal ∧ (s2dAt 2 0 9 8).s2d.ch = 0 ∧ (s2eAt 2 0 9 8 1 0).Legal
    ∧ (s2eAt 2 0 9 8 1 0).s2e.ch = 0 := by decide
theorem witness_EncoderAndDecoderTracesAgree :
    (a4dAt 11 8).a4d.pred = (a4eAt 11 8 1 7).a4e.pred ∧ (a4dAt 11 8).a4d.idx = (a4eAt 11 8 1 7).a4e.idx := by decide
theorem witness_SilenceStaysSilence : State.reset.a4e.pred = 0 ∧ State.reset.a4e.idx = 0 := by decide
theorem witness_SdxDecoderTracksEncoder : (s2eAt 2 1 9 8 1 0).s2e.nch.toNat = 2
    ∧ (s2dAt 2 1 9 8).s2d = ⟨(s2eAt 2 1 9 8 1 0).s2e.nch, (s2eAt 2 1 9 8 1 0).s2e.ch, (s2eAt 2 1 9 8 1 0).s2e.prev0,
        (s2eAt 2 1 9 8 1 0).s2e.prev1⟩ := by decide

/-- One short input, one small capacity and one exact fit of each procedure. -/
theorem witness_StreamPreconditions :
    ([0x7F].length < (3 + 1) / 2 ∧ 2 < 3 ∧ (3 + 1) / 2 ≤ [0x7F, 0x70].length ∧ 3 ≤ 3)
    ∧ (1 < (State.reset.a4e.phase.toNat + [1000, -1000, 500].length + 1) / 2
      ∧ (State.reset.a4e.phase.toNat + [1000, -1000, 500].length) / 2 ≤ 1)
    ∧ (0 < [0x06].length ∧ [0x06].length ≤ 1) := by decide
theorem witness_DecodeIsSymbolBySymbol : ∃ t, adp4Decode [0x7F, 0x70] 3 3 State.reset = .done [11, -19, 44] t := ⟨_, rfl⟩
theorem witness_AdpEncodeInChunks : ∃ s1 s2 o1 o2, adp4Encode [1000] false 0 State.reset = .done o1 s1
    ∧ adp4Encode [-1000, 500] true 2 s1 = .done o2 s2 ∧ o1.length + o2.length ≤ 2 :=
  ⟨_, _, [], [0x7F, 0x70], rfl, rfl, by decide⟩
theorem witness_AdpDecodeInChunks : ∃ s1 s2 o1 o2, 2 % 2 = 0 ∧ adp4Decode [0x7F] 2 2 State.reset = .done o1 s1
    ∧ adp4Decode [0x70] 1 1 s1 = .done o2 s2 ∧ 2 + 1 ≤ 3 :=
  ⟨_, _, [11, -19], [44], by decide, rfl, rfl, by decide⟩
theorem witness_SdxInChunks :
    (∃ s1 s2 o1 o2, sdx2Decode [0x06] 1 State.reset = .done o1 s1 ∧ sdx2Decode [0x07] 1 s1 = .done o2 s2
      ∧ o1.length + o2.length ≤ 2)
    ∧ (∃ s1 s2 o1 o2, sdx2Encode [100] 1 State.reset = .done o1 s1 ∧ sdx2Encode [100] 1 s1 = .done o2 s2
      ∧ o1.length + o2.length ≤ 2) :=
  ⟨⟨_, _, [72], [144], rfl, rfl, by decide⟩, ⟨_, _, [0x06], [0x05], rfl, rfl, by decide⟩⟩
theorem witness_AdpRoundTrip : (∀ x ∈ ([1000, -32768, 32767] : List Int), isInt16 x)
    ∧ ([1000, -32768, 32767].length + 1) / 2 ≤ 2 ∧ [1000, -32768, 32767].length ≤ 3 := by decide
theorem witness_SdxRoundTrip : (∀ x ∈ ([100, -32768, 32767] : List Int), isInt16 x) ∧ ((2 : Nat) = 1 ∨ (2 : Nat) = 2)
    ∧ [100, -32768, 32767].length ≤ 3 := by decide

-- R80: hypotheses of its clauses, the index at its upper bound, a boundary between two bytes
theorem witness_DecoderStreamProperties :
    ((a4dAt 0x8000 88).a4d.StepAgrees ∧ ∃ t, exec (.a4dSym 7) (a4dAt 0x8000 88) = .next t)
    ∧ (11 ∈ emittedSamples [.a4dHigh 0x7F] State.reset)
    ∧ (a4dAt 11 8).a4d = ((a4dAt 11 8).withS2d ⟨2, 1, 9, 8⟩).a4d
    ∧ (a4dAt 11 8).a4d = (((execTrace [.a4dSym 7] State.reset).getLast?).getD State.reset).a4d
    ∧ ∃ s1 s2 o1 o2, 2 % 2 = 0 ∧ adp4Decode [0x7F] 2 2 State.reset = .done o1 s1
      ∧ (State.reset.withA4d s1.a4d).a4d = s1.a4d ∧ adp4Decode [0x70] 1 1 (State.reset.withA4d s1.a4d) = .done o2 s2 ∧ 2 + 1 ≤ 3 :=
  ⟨⟨by decide, _, rfl⟩, by decide, rfl, rfl, _, _, [11, -19], [44], by decide, rfl, rfl, rfl, by decide⟩

-- P1, commands 7 to 9: the samples a mixed run emits, an encoder command between them making no difference
theorem test_emittedSamples : emittedSamples [.a4dInit, .a4dByte 0x7F, .a4ePush 1000, .a4dHigh 0x70] State.reset = [11, -19, 44] := by
  decide

end Sys2Proof.Tests
end

section
/-! PROOFS. What an operand field gives back of a value placed on a bus, and the range it reads into (30_encoding.md R62, R63;
00_scope.md R13). -/

namespace Sys2Proof

/-- The range of a signed field (R13). -/
theorem fitsSigned_iff (bits : Nat) (z : Int) :
    fitsSigned bits z = true ↔ -(2 ^ (bits - 1)) ≤ z ∧ z < 2 ^ (bits - 1) := by
  simp [fitsSigned]

/-- The range of an unsigned field (R13). -/
theorem fitsUnsigned_iff (bits n : Nat) : fitsUnsigned bits n = true ↔ n < 2 ^ bits := by
  simp [fitsUnsigned]

/-- A signed field reads a value in its range, whatever the bus carries. -/
theorem fitsSigned_sextField (bits : Nat) (v : Word) : fitsSigned bits (sextField bits v) = true :=
  (fitsSigned_iff _ _).2 ⟨BitVec.le_toInt _, BitVec.toInt_lt⟩

/-- An unsigned field reads a value in its range, whatever the bus carries. -/
theorem fitsUnsigned_zextField (bits : Nat) (v : Word) : fitsUnsigned bits (zextField bits v) = true :=
  (fitsUnsigned_iff _ _).2 (bitField v 0 bits).isLt

/-- The lowest field of a bus is the bus narrowed to the field's width. -/
theorem bitField_zero_eq_setWidth {w : Nat} (hw : w ≤ 64) (v : Word) : bitField v 0 w = v.setWidth w :=
  (BitVec.setWidth_eq_extractLsb' hw).symm

/-- A signed operand that fits its field reads back as itself. -/
theorem sextField_busInt {bits : Nat} {z : Int} (pos : 0 < bits) (le : bits ≤ 64) (fits : fitsSigned bits z = true) :
    sextField bits (busInt z) = z := by
  obtain ⟨lower, upper⟩ := (fitsSigned_iff _ _).1 fits
  have narrowed : (busInt z).setWidth bits = BitVec.ofInt bits z := by
    apply BitVec.eq_of_toInt_eq
    rw [busInt, ← BitVec.signExtend_eq_setWidth_of_le _ le, BitVec.toInt_signExtend_eq_toInt_bmod_of_le _ le,
      BitVec.toInt_ofInt, BitVec.toInt_ofInt, Int.bmod_bmod_of_dvd (Nat.pow_dvd_pow 2 le)]
  rw [sextField, bitField_zero_eq_setWidth le, narrowed, BitVec.toInt_ofInt_eq_self pos lower upper]

/-- A sample operand reads back as itself. -/
theorem sextField_busInt_16 {z : Int} (fits : fitsSigned 16 z = true) : sextField 16 (busInt z) = z :=
  sextField_busInt (by decide) (by decide) fits

/-- A bus-wide signed operand reads back as itself. -/
theorem sextField_busInt_64 {z : Int} (fits : fitsSigned 64 z = true) : sextField 64 (busInt z) = z :=
  sextField_busInt (by decide) (by decide) fits

/-- An unsigned operand that fits its field reads back as itself. -/
theorem zextField_busNat {bits n : Nat} (le : bits ≤ 64) (fits : fitsUnsigned bits n = true) :
    zextField bits (busNat n) = n := by
  rw [zextField, bitField_zero_eq_setWidth le, busNat, BitVec.setWidth_ofNat_of_le le, BitVec.toNat_ofNat,
    Nat.mod_eq_of_lt ((fitsUnsigned_iff _ _).1 fits)]

/-- A bit pattern placed at bit `lo` reads back from there. -/
theorem bitField_busBits_same {w lo : Nat} (v : BitVec w) (h : lo + w ≤ 64) : bitField (busBits lo v) lo w = v := by
  apply BitVec.eq_of_getLsbD_eq
  intro j hj
  simp [bitField, busBits, hj, show lo + j < 64 by omega]

/-- A bit pattern placed elsewhere contributes nothing to a field. -/
theorem bitField_busBits_apart {w w' lo lo' : Nat} (v : BitVec w) (apart : lo' + w' ≤ lo ∨ lo + w ≤ lo') :
    bitField (busBits lo v) lo' w' = 0 := by
  apply BitVec.eq_of_getLsbD_eq
  intro j hj
  rcases apart with below | above
  · simp [bitField, busBits, show lo' + j < lo by omega]
  · simp [bitField, busBits, BitVec.getLsbD_of_ge v (lo' + j - lo) (by omega)]

/-- A field of two values laid over each other is their fields laid over each other. -/
theorem bitField_or (u v : Word) (lo w : Nat) : bitField (u ||| v) lo w = bitField u lo w ||| bitField v lo w :=
  BitVec.extractLsb'_or

/-- Of two bit patterns placed side by side on one bus, the lower reads back. -/
theorem bitField_busBits_low {w w' lo : Nat} (u : BitVec w) (v : BitVec w') (h : w ≤ lo) (h64 : w ≤ 64) :
    bitField (busBits 0 u ||| busBits lo v) 0 w = u := by
  rw [bitField_or, bitField_busBits_same u (by omega), bitField_busBits_apart v (by omega)]
  exact BitVec.or_zero

/-- Of two bit patterns placed side by side on one bus, the upper reads back. -/
theorem bitField_busBits_high {w w' lo : Nat} (u : BitVec w) (v : BitVec w') (h : w ≤ lo) (h64 : lo + w' ≤ 64) :
    bitField (busBits 0 u ||| busBits lo v) lo w' = v := by
  rw [bitField_or, bitField_busBits_same v h64, bitField_busBits_apart u (by omega)]
  exact BitVec.zero_or

end Sys2Proof
end

section
/-! PROOFS. The decoder, row by row of R54 and R62, whatever the operand bits a row does not read (R51), and its agreement
with `encode` (O1, O2). -/

namespace Sys2Proof

theorem decode_cluClamp16 (a b c : Word) : decode ⟨0x10, a, b, c⟩ = .ok (.cluClamp16 (sextField 64 a)) := rfl
theorem decode_cluClamp (a b c : Word) :
    decode ⟨0x11, a, b, c⟩ = .ok (.cluClamp (sextField 64 a) (sextField 64 b) (sextField 64 c)) := rfl
theorem decode_a4dInit (a b c : Word) : decode ⟨0x20, a, b, c⟩ = .ok .a4dInit := rfl
theorem decode_a4dLoad (a b c : Word) : decode ⟨0x21, a, b, c⟩ = .ok (.a4dLoad (sextField 16 a) (zextField 8 b)) := rfl
theorem decode_a4dRead (a b c : Word) : decode ⟨0x22, a, b, c⟩ = .ok .a4dRead := rfl
theorem decode_a4dSym (a b c : Word) : decode ⟨0x23, a, b, c⟩ = .ok (.a4dSym (bitField a 0 4)) := rfl
theorem decode_a4dByte (a b c : Word) : decode ⟨0x24, a, b, c⟩ = .ok (.a4dByte (bitField a 0 8)) := rfl
theorem decode_a4dHigh (a b c : Word) : decode ⟨0x25, a, b, c⟩ = .ok (.a4dHigh (bitField a 0 8)) := rfl
theorem decode_a4eInit (a b c : Word) : decode ⟨0x30, a, b, c⟩ = .ok .a4eInit := rfl
theorem decode_a4eLoad (a b c : Word) :
    decode ⟨0x31, a, b, c⟩ = .ok (.a4eLoad (sextField 16 a) (zextField 8 b) (bitField c 0 4) (bitField c 8 1)) := rfl
theorem decode_a4eRead (a b c : Word) : decode ⟨0x32, a, b, c⟩ = .ok .a4eRead := rfl
theorem decode_a4eSym (a b c : Word) : decode ⟨0x33, a, b, c⟩ = .ok (.a4eSym (sextField 16 a)) := rfl
theorem decode_a4ePush (a b c : Word) : decode ⟨0x34, a, b, c⟩ = .ok (.a4ePush (sextField 16 a)) := rfl
theorem decode_a4eFlush (a b c : Word) : decode ⟨0x35, a, b, c⟩ = .ok .a4eFlush := rfl
theorem decode_s2dInit (a b c : Word) : decode ⟨0x40, a, b, c⟩ = .ok (.s2dInit (zextField 8 a)) := rfl
theorem decode_s2dLoad (a b c : Word) :
    decode ⟨0x41, a, b, c⟩ = .ok (.s2dLoad (sextField 16 a) (bitField b 0 1) (bitField c 0 1)) := rfl
theorem decode_s2dRead (a b c : Word) : decode ⟨0x42, a, b, c⟩ = .ok .s2dRead := rfl
theorem decode_s2dByte (a b c : Word) : decode ⟨0x43, a, b, c⟩ = .ok (.s2dByte (bitField a 0 8)) := rfl
theorem decode_s2eInit (a b c : Word) : decode ⟨0x50, a, b, c⟩ = .ok (.s2eInit (zextField 8 a)) := rfl
theorem decode_s2eLoad (a b c : Word) :
    decode ⟨0x51, a, b, c⟩ = .ok (.s2eLoad (sextField 16 a) (bitField b 0 1) (bitField c 0 1) (bitField c 8 1)) := rfl
theorem decode_s2eRead (a b c : Word) : decode ⟨0x52, a, b, c⟩ = .ok .s2eRead := rfl
theorem decode_s2eSample (a b c : Word) : decode ⟨0x53, a, b, c⟩ = .ok (.s2eSample (sextField 16 a)) := rfl

/-- Every field of a well-formed instruction reads back what `encode` placed in it. -/
theorem decode_encode {i : Instr} (h : i.wellFormed = true) : decode (encode i) = .ok i := by
  cases i with
  | cluClamp16 x => rw [encode, decode_cluClamp16, sextField_busInt_64 h]
  | cluClamp x lo hi =>
    obtain ⟨hxlo, hhi⟩ := Bool.and_eq_true_iff.1 h
    obtain ⟨hx, hlo⟩ := Bool.and_eq_true_iff.1 hxlo
    rw [encode, decode_cluClamp, sextField_busInt_64 hx, sextField_busInt_64 hlo, sextField_busInt_64 hhi]
  | a4dLoad p i =>
    obtain ⟨hp, hi⟩ := Bool.and_eq_true_iff.1 h
    rw [encode, decode_a4dLoad, sextField_busInt_16 hp, zextField_busNat (by decide) hi]
  | a4dSym n => rw [encode, decode_a4dSym, bitField_busBits_same n (by decide)]
  | a4dByte b => rw [encode, decode_a4dByte, bitField_busBits_same b (by decide)]
  | a4dHigh b => rw [encode, decode_a4dHigh, bitField_busBits_same b (by decide)]
  | a4eLoad p i q ph =>
    obtain ⟨hp, hi⟩ := Bool.and_eq_true_iff.1 h
    rw [encode, decode_a4eLoad, sextField_busInt_16 hp, zextField_busNat (by decide) hi,
      bitField_busBits_low q ph (by decide) (by decide), bitField_busBits_high q ph (by decide) (by decide)]
  | a4eSym x => rw [encode, decode_a4eSym, sextField_busInt_16 h]
  | a4ePush x => rw [encode, decode_a4ePush, sextField_busInt_16 h]
  | s2dInit k => rw [encode, decode_s2dInit, zextField_busNat (by decide) h]
  | s2dLoad p c q =>
    rw [encode, decode_s2dLoad, sextField_busInt_16 h, bitField_busBits_same c (by decide),
      bitField_busBits_same q (by decide)]
  | s2dByte b => rw [encode, decode_s2dByte, bitField_busBits_same b (by decide)]
  | s2eInit k => rw [encode, decode_s2eInit, zextField_busNat (by decide) h]
  | s2eLoad p c q f =>
    rw [encode, decode_s2eLoad, sextField_busInt_16 h, bitField_busBits_same c (by decide),
      bitField_busBits_low q f (by decide) (by decide), bitField_busBits_high q f (by decide) (by decide)]
  | s2eSample x => rw [encode, decode_s2eSample, sextField_busInt_16 h]
  | a4dInit | a4dRead | a4eInit | a4eRead | a4eFlush | s2dRead | s2eRead => rfl

/-- An instruction that the decoder reads was built by the row of R54 with the command's opcode. -/
theorem exists_row_of_decode_eq_ok {k : Command} {i : Instr} (h : decode k = .ok i) :
    ∃ row ∈ opcodeTable, row.op = k.op ∧ row.build k = i := by
  unfold decode at h
  split at h
  next row found => exact ⟨row, List.mem_of_find?_eq_some found, by simpa using List.find?_some found, Except.ok.inj h⟩
  next => cases h

/-- Every row of R54 builds a well-formed instruction, since each integer operand comes from a field of its width. -/
theorem wellFormed_build : ∀ row ∈ opcodeTable, ∀ k, (row.build k).wellFormed = true := by
  simp [opcodeTable, opcodeRowsCluA4d, opcodeRowsA4e, opcodeRowsSdx2, Instr.wellFormed, fitsSigned_sextField,
    fitsUnsigned_zextField]

/-- Settles O1, constructor by constructor from the rows of the decoder. -/
theorem decodeEncodeWellFormed : Obligations.DecodeEncodeWellFormed := fun _ => decode_encode

/-- Settles O2: the row that built the instruction reads each operand from its field. -/
theorem decodedIsWellFormed : Obligations.DecodedIsWellFormed := by
  intro k i h
  obtain ⟨row, mem, -, rfl⟩ := exists_row_of_decode_eq_ok h
  exact wellFormed_build row mem k

end Sys2Proof
end

section
/-! PROOFS. Which of two things a command does: it is rejected and raises `InvalidArgument`, or it completes (O15). -/

namespace Sys2Proof.Machine

/-- What the LOAD commands test before they write (R106, R124). -/
theorem missingChannel_or_iff {c q : Bit} {nch : BitVec 2} :
    (missingChannel c nch || missingChannel q nch) = true ↔ nch.toNat ≤ c.toNat ∨ nch.toNat ≤ q.toNat := by
  simp [missingChannel]

/-- What the SDX2 INIT commands test before they write (R105, R123). -/
theorem legalChannelCount_iff {k : Nat} : legalChannelCount k = true ↔ ¬ (k ≠ 1 ∧ k ≠ 2) := by
  simp only [legalChannelCount, Bool.or_eq_true, beq_iff_eq]
  omega

/-- R171: a command that the table lists raises `InvalidArgument`. -/
theorem exec_of_rejects {i : Instr} {s : State} (h : rejects i s) : exec i s = raiseInvalidArgument s := by
  cases i with
  | a4dLoad p idx => exact if_pos h
  | a4eLoad p idx q ph => exact if_pos h
  | s2dInit k => exact if_neg fun legal => legalChannelCount_iff.1 legal h
  | s2eInit k => exact if_neg fun legal => legalChannelCount_iff.1 legal h
  | s2dLoad p c q => exact if_pos (missingChannel_or_iff.2 h)
  | s2eLoad p c q f => exact if_pos (missingChannel_or_iff.2 h)
  | _ => exact h.elim

/-- R171: a command that the table does not list completes. -/
theorem exec_of_not_rejects {i : Instr} {s : State} (h : ¬ rejects i s) : ∃ y t, exec i s = complete y t := by
  cases i with
  | a4dLoad p idx => exact ⟨_, _, if_neg h⟩
  | a4eLoad p idx q ph => exact ⟨_, _, if_neg h⟩
  | s2dInit k => exact ⟨_, _, if_pos (legalChannelCount_iff.2 h)⟩
  | s2eInit k => exact ⟨_, _, if_pos (legalChannelCount_iff.2 h)⟩
  | s2dLoad p c q => exact ⟨_, _, if_neg (mt missingChannel_or_iff.1 h)⟩
  | s2eLoad p c q f => exact ⟨_, _, if_neg (mt missingChannel_or_iff.1 h)⟩
  | a4ePush x =>
    by_cases first : s.a4e.phase = 0
    · exact ⟨_, _, if_pos first⟩
    · exact ⟨_, _, if_neg first⟩
  | a4eFlush =>
    by_cases pending : s.a4e.phase = 1
    · exact ⟨_, _, if_pos pending⟩
    · exact ⟨_, _, if_neg pending⟩
  | _ => exact ⟨_, _, rfl⟩

/-- Settles O15: a listed command raises, every other one completes. -/
theorem invalidArgumentExactlyWhereListed : Obligations.InvalidArgumentExactlyWhereListed := by
  intro i s
  refine ⟨fun h => exec_of_rejects h, fun h => ?_⟩
  obtain ⟨y, t, completes⟩ := exec_of_not_rejects h
  exact ⟨t.withRsp (some ⟨y, 0⟩), y, completes, rfl⟩

end Sys2Proof.Machine
end

section
/-! PROOFS. A command reads and writes the registers of one unit (R31, O16), and inside its unit it leaves some alone (R26, R35,
R46, O17). -/

namespace Sys2Proof.Machine

/-- `s` with unit `u`'s registers as they are in `r` (CLU has none, R29). -/
def State.withUnit (s : State) (u : Unit5) (r : State) : State :=
  match u with
  | .clu => s
  | .a4d => s.withA4d r.a4d
  | .a4e => s.withA4e r.a4e
  | .s2d => s.withS2d r.s2d
  | .s2e => s.withS2e r.s2e

/-- An outcome with its next state, where it has one, replaced by `f` of it. -/
def mapNext (f : State → State) : Result → Result
  | .next t => .next (f t)
  | .fault r => .fault r
  | .refused r => .refused r

/-- Two commands that branch on one condition correspond where their branches do. -/
theorem ite_eq_mapNext_ite {f : State → State} {c : Prop} {_ : Decidable c} {a a' b b' : Result} (ha : a' = mapNext f a)
    (hb : b' = mapNext f b) : (if c then a' else b') = mapNext f (if c then a else b) := by
  rw [ha, hb, apply_ite (mapNext f)]

@[simp] theorem State.withUnit_port (s : State) (u : Unit5) (r : State) : (s.withUnit u r).port = s.port := by
  cases u <;> rfl

theorem sameUnit_refl (u : Unit5) (s : State) : sameUnit u s s := by
  cases u with
  | clu => trivial
  | _ => exact rfl

theorem sameUnit.symm {u : Unit5} {s t : State} (h : sameUnit u s t) : sameUnit u t s := by
  cases u with
  | clu => trivial
  | _ => exact Eq.symm h

theorem sameUnit.trans {u : Unit5} {r s t : State} (h : sameUnit u r s) (h' : sameUnit u s t) : sameUnit u r t := by
  cases u with
  | clu => trivial
  | _ => exact Eq.trans h h'

theorem sameRegisters_of_sameUnit {s t : State} (h : ∀ u, sameUnit u s t) : sameRegisters s t :=
  ⟨h .a4d, h .a4e, h .s2d, h .s2e⟩

theorem State.withUnit_eq_self {u : Unit5} {s r : State} (h : sameUnit u r s) : s.withUnit u r = s := by
  cases u with
  | clu => rfl
  | a4d => exact congrArg s.withA4d h
  | a4e => exact congrArg s.withA4e h
  | s2d => exact congrArg s.withS2d h
  | s2e => exact congrArg s.withS2e h

theorem sameUnit_withUnit (u : Unit5) (s r : State) : sameUnit u r (s.withUnit u r) := by
  cases u with
  | clu => trivial
  | _ => exact rfl

theorem sameUnit_withUnit_of_ne {u v : Unit5} (h : v ≠ u) (s r : State) : sameUnit v s (s.withUnit u r) := by
  cases u <;> cases v <;> trivial

/-- The response bus is no register. -/
theorem sameUnit_withRsp_iff {u : Unit5} {s t : State} {o : Option Response} :
    sameUnit u s (t.withRsp o) ↔ sameUnit u s t := by
  cases u <;> rfl

/-- R31: where a command's unit holds what it holds in `r`, the command writes there and answers what it does in `r`, whatever
the other units hold, and keeps everything else. -/
theorem exec_withUnit (i : Instr) (s r : State) :
    exec i (s.withUnit (unitOf i) r) = mapNext (fun t => (s.withUnit (unitOf i) t).withRsp t.rsp) (exec i r) := by
  cases i with
  | a4dLoad | a4eLoad | a4ePush | a4eFlush | s2dInit | s2dLoad | s2eInit | s2eLoad =>
    exact ite_eq_mapNext_ite rfl rfl
  | _ => rfl

theorem exec_eq_of_sameUnit {i : Instr} {s s' t : State} (same : sameUnit (unitOf i) s s') (h : exec i s = .next t) :
    exec i s' = .next ((s'.withUnit (unitOf i) t).withRsp t.rsp) := by
  have := exec_withUnit i s' s
  rwa [State.withUnit_eq_self same, h] at this

theorem exec_sameUnit {i : Instr} {s s' t t' : State} (same : sameUnit (unitOf i) s s') (h : exec i s = .next t)
    (h' : exec i s' = .next t') : sameUnit (unitOf i) t t' ∧ t.rsp = t'.rsp := by
  obtain rfl := Host.Outcome.next.inj ((exec_eq_of_sameUnit same h).symm.trans h')
  exact ⟨sameUnit_withRsp_iff.2 (sameUnit_withUnit _ _ _), rfl⟩

theorem exec_onlyUnit {i : Instr} {s t : State} (h : exec i s = .next t) : onlyUnit (unitOf i) s t := by
  have eq := Host.Outcome.next.inj (h.symm.trans (exec_eq_of_sameUnit (sameUnit_refl _ s) h))
  rw [eq]
  exact ⟨State.withUnit_port _ _ _, fun _ ne => sameUnit_withRsp_iff.2 (sameUnit_withUnit_of_ne ne s t)⟩

/-- R31: after `i` and then `j`, the commands being of different units, `j`'s unit and response are what `j` alone leaves, and
every other unit is what `i` alone leaves. -/
theorem exec_then_exec {i j : Instr} {s si sij sj : State} (apart : unitOf i ≠ unitOf j) (hi : exec i s = .next si)
    (hij : exec j si = .next sij) (hj : exec j s = .next sj) :
    sameUnit (unitOf j) sij sj ∧ sij.rsp = sj.rsp ∧ ∀ u, u ≠ unitOf j → sameUnit u sij si := by
  obtain ⟨-, kept⟩ := exec_onlyUnit hi
  obtain ⟨-, kept'⟩ := exec_onlyUnit hij
  obtain ⟨same, answer⟩ := exec_sameUnit (kept _ apart.symm).symm hij hj
  exact ⟨same, answer, fun u ne => (kept' u ne).symm⟩

theorem exec_comm {i j : Instr} {s si sij sj sji : State} (apart : unitOf i ≠ unitOf j) (hi : exec i s = .next si)
    (hij : exec j si = .next sij) (hj : exec j s = .next sj) (hji : exec i sj = .next sji) :
    sameRegisters sij sji ∧ si.rsp = sji.rsp ∧ sij.rsp = sj.rsp := by
  obtain ⟨sameJ, answerJ, restJ⟩ := exec_then_exec apart hi hij hj
  obtain ⟨sameI, answerI, restI⟩ := exec_then_exec apart.symm hj hji hi
  refine ⟨sameRegisters_of_sameUnit fun u => ?_, answerI.symm, answerJ⟩
  by_cases ofI : u = unitOf i
  · subst ofI; exact (restJ _ apart).trans sameI.symm
  by_cases ofJ : u = unitOf j
  · subst ofJ; exact sameJ.trans (restI _ ofI).symm
  obtain ⟨-, keptI⟩ := exec_onlyUnit hi
  obtain ⟨-, keptJ⟩ := exec_onlyUnit hj
  exact (restJ u ofJ).trans ((keptI u ofI).symm.trans ((keptJ u ofJ).trans (restI u ofI).symm))

/-- Settles O16: frame, noninterference and commutation all follow from the one equation `exec_withUnit`. -/
theorem unitsAreIndependent : Obligations.UnitsAreIndependent :=
  ⟨fun _ _ _ => exec_onlyUnit, fun _ _ _ _ _ => exec_sameUnit, fun _ _ _ _ _ _ _ => exec_comm⟩

/-- A command that completes in the state it was given changes no register. -/
theorem sameRegisters_of_complete {y : Word} {s t : State} (h : complete y s = .next t) :
    sameRegisters s t ∧ t.port = s.port := by
  obtain rfl := Host.Outcome.next.inj h
  exact ⟨⟨rfl, rfl, rfl, rfl⟩, rfl⟩

theorem s2dWrite_prev_other {r : S2dRegs} {c d : Bit} {p : Int} {q : Bit} (h : d ≠ c) :
    (s2dWrite r c p q).prev d = r.prev d :=
  congrArg BitVec.toInt (channelGet_set_other c d _ _ _ h)

theorem s2eWrite_prev_other {r : S2eRegs} {c d : Bit} {p : Int} {f q : Bit} (h : d ≠ c) :
    (s2eWrite r c p f q).prev d = r.prev d :=
  congrArg BitVec.toInt (channelGet_set_other c d _ _ _ h)

theorem s2eWrite_started_other {r : S2eRegs} {c d : Bit} {p : Int} {f q : Bit} (h : d ≠ c) :
    (s2eWrite r c p f q).started d = r.started d :=
  channelGet_set_other c d _ _ _ h

/-- Settles O17, command by command. -/
theorem registersACommandLeavesAlone : Obligations.RegistersACommandLeavesAlone := by
  refine ⟨?readAndClu, ?sym, ?flush, ?s2dLoad, ?s2dByte, ?s2eLoad, ?s2eSample⟩
  case readAndClu =>
    rintro s t i (rfl | rfl | rfl | rfl | ⟨x, rfl⟩ | ⟨x, lo, hi, rfl⟩) h <;> exact sameRegisters_of_complete h
  case sym =>
    intro s t x h
    obtain rfl := Host.Outcome.next.inj h
    exact ⟨rfl, rfl⟩
  case flush =>
    intro s t h
    rcases ite_eq_iff.1 h with ⟨-, h⟩ | ⟨-, h⟩ <;> obtain rfl := Host.Outcome.next.inj h <;> exact ⟨rfl, rfl⟩
  case s2dLoad =>
    intro s t p c q h
    rcases ite_eq_iff.1 h with ⟨-, h⟩ | ⟨-, h⟩ <;> obtain rfl := Host.Outcome.next.inj h
    · exact ⟨rfl, fun _ _ => rfl⟩
    · exact ⟨rfl, fun _ => s2dWrite_prev_other⟩
  case s2dByte =>
    intro s t b h
    obtain rfl := Host.Outcome.next.inj h
    exact ⟨rfl, fun _ => s2dWrite_prev_other⟩
  case s2eLoad =>
    intro s t p c q f h
    rcases ite_eq_iff.1 h with ⟨-, h⟩ | ⟨-, h⟩ <;> obtain rfl := Host.Outcome.next.inj h
    · exact ⟨rfl, fun _ _ => ⟨rfl, rfl⟩⟩
    · exact ⟨rfl, fun _ ne => ⟨s2eWrite_prev_other ne, s2eWrite_started_other ne⟩⟩
  case s2eSample =>
    intro s t x h
    obtain rfl := Host.Outcome.next.inj h
    exact ⟨rfl, fun _ ne => ⟨s2eWrite_prev_other ne, s2eWrite_started_other ne⟩⟩

end Sys2Proof.Machine
end

section
/-! PROOFS. What a step can do to the registers of each unit, and the invariants that follow (R30, O11, O13), with the reset
state they start from (R34, O9, O12). -/

namespace Sys2Proof.Machine

/-- What a step can do to A4D's registers: nothing, or write a pair whose index is in range. -/
inductive A4dStep (r : A4dRegs) : A4dRegs → Prop where
  | keep : A4dStep r r
  | write {st : Int × Nat} (inRange : st.2 ≤ 88) : A4dStep r (a4dWrite st)

/-- What a step can do to A4E's registers: nothing, or write a pair whose index is in range, or a packer that holds a nibble only
where one is pending (D10), or both. -/
inductive A4eStep (r : A4eRegs) : A4eRegs → Prop where
  | keep : A4eStep r r
  | pair {st : Int × Nat} (inRange : st.2 ≤ 88) : A4eStep r (a4eWritePair r st)
  | packer {h : Bit} {q : Nibble} (tidy : h = 0 → q = 0) : A4eStep r (a4eWritePacker r h q)
  | both {st : Int × Nat} {h : Bit} {q : Nibble} (inRange : st.2 ≤ 88) (tidy : h = 0 → q = 0) :
      A4eStep r (a4eWritePacker (a4eWritePair r st) h q)

/-- What a step can do to S2D's registers: nothing, or start a stream of one or two channels, or load one channel of the stream, or
decode a byte of the current one. -/
inductive S2dStep (r : S2dRegs) : S2dRegs → Prop where
  | keep : S2dStep r r
  | init {k : Nat} (count : k = 1 ∨ k = 2) : S2dStep r ⟨BitVec.ofNat 2 k, 0, 0, 0⟩
  | load {c q : Bit} {p : Int} (hc : c.toNat < r.nch.toNat) (hq : q.toNat < r.nch.toNat) : S2dStep r (s2dWrite r c p q)
  | byte {p : Int} : S2dStep r (s2dWrite r r.ch p (nextChannel r.ch r.nch))

/-- What a step can do to S2E's registers: nothing, or start a stream of one or two channels, or load one channel of the stream, or
code a sample of the current one. -/
inductive S2eStep (r : S2eRegs) : S2eRegs → Prop where
  | keep : S2eStep r r
  | init {k : Nat} (count : k = 1 ∨ k = 2) : S2eStep r ⟨BitVec.ofNat 2 k, 0, 0, 0, 0, 0⟩
  | load {c q f : Bit} {p : Int} (hc : c.toNat < r.nch.toNat) (hq : q.toNat < r.nch.toNat) : S2eStep r (s2eWrite r c p f q)
  | sample {p : Int} : S2eStep r (s2eWrite r r.ch p 1 (nextChannel r.ch r.nch))

/-- What a step can do to the registers. -/
structure RegistersStep (s t : State) : Prop where
  a4d : A4dStep s.a4d t.a4d
  a4e : A4eStep s.a4e t.a4e
  s2d : S2dStep s.s2d t.s2d
  s2e : S2eStep s.s2e t.s2e

theorem exec_a4dStep {i : Instr} {s t : State} (h : exec i s = .next t) : A4dStep s.a4d t.a4d := by
  cases i with
  | a4dInit => obtain rfl := Host.Outcome.next.inj h; exact .write (Nat.zero_le _)
  | a4dLoad p idx =>
    rcases ite_eq_iff.1 h with ⟨-, h⟩ | ⟨inRange, h⟩ <;> obtain rfl := Host.Outcome.next.inj h
    · exact .keep
    · exact .write (Nat.not_lt.1 inRange)
  | a4dRead => obtain rfl := Host.Outcome.next.inj h; exact .keep
  | a4dSym | a4dByte | a4dHigh => obtain rfl := Host.Outcome.next.inj h; exact .write (adp4NextIdx_le _ _)
  | _ => exact ((exec_onlyUnit h).2 .a4d nofun : s.a4d = t.a4d) ▸ .keep

theorem exec_a4eStep {i : Instr} {s t : State} (h : exec i s = .next t) : A4eStep s.a4e t.a4e := by
  cases i with
  | a4eInit => obtain rfl := Host.Outcome.next.inj h; exact .both (Nat.zero_le _) fun _ => rfl
  | a4eLoad p idx q ph =>
    rcases ite_eq_iff.1 h with ⟨-, h⟩ | ⟨inRange, h⟩ <;> obtain rfl := Host.Outcome.next.inj h
    · exact .keep
    · exact .both (Nat.not_lt.1 inRange) (by rintro rfl; rfl)
  | a4eRead => obtain rfl := Host.Outcome.next.inj h; exact .keep
  | a4eSym x => obtain rfl := Host.Outcome.next.inj h; exact .pair (adp4NextIdx_le _ _)
  | a4ePush x =>
    rcases ite_eq_iff.1 h with ⟨-, h⟩ | ⟨-, h⟩ <;> obtain rfl := Host.Outcome.next.inj h
    · exact .both (adp4NextIdx_le _ _) nofun
    · exact .both (adp4NextIdx_le _ _) fun _ => rfl
  | a4eFlush =>
    rcases ite_eq_iff.1 h with ⟨-, h⟩ | ⟨-, h⟩ <;> obtain rfl := Host.Outcome.next.inj h
    · exact .packer fun _ => rfl
    · exact .keep
  | _ => exact ((exec_onlyUnit h).2 .a4e nofun : s.a4e = t.a4e) ▸ .keep

/-- The channel counts that the INIT commands accept. -/
theorem legalChannelCount_eq_or {k : Nat} (h : legalChannelCount k = true) : k = 1 ∨ k = 2 := by
  have := legalChannelCount_iff.1 h
  omega

/-- What the LOAD commands know of their channel operands where they write. -/
theorem channels_lt_of_not_missing {c q : Bit} {nch : BitVec 2}
    (h : ¬ (missingChannel c nch || missingChannel q nch) = true) : c.toNat < nch.toNat ∧ q.toNat < nch.toNat := by
  rwa [missingChannel_or_iff, not_or, Nat.not_le, Nat.not_le] at h

theorem exec_s2dStep {i : Instr} {s t : State} (h : exec i s = .next t) : S2dStep s.s2d t.s2d := by
  cases i with
  | s2dInit k =>
    rcases ite_eq_iff.1 h with ⟨count, h⟩ | ⟨-, h⟩ <;> obtain rfl := Host.Outcome.next.inj h
    · exact .init (legalChannelCount_eq_or count)
    · exact .keep
  | s2dLoad p c q =>
    rcases ite_eq_iff.1 h with ⟨-, h⟩ | ⟨present, h⟩ <;> obtain rfl := Host.Outcome.next.inj h
    · exact .keep
    · obtain ⟨hc, hq⟩ := channels_lt_of_not_missing present
      exact .load hc hq
  | s2dRead => obtain rfl := Host.Outcome.next.inj h; exact .keep
  | s2dByte b => obtain rfl := Host.Outcome.next.inj h; exact .byte
  | _ => exact ((exec_onlyUnit h).2 .s2d nofun : s.s2d = t.s2d) ▸ .keep

theorem exec_s2eStep {i : Instr} {s t : State} (h : exec i s = .next t) : S2eStep s.s2e t.s2e := by
  cases i with
  | s2eInit k =>
    rcases ite_eq_iff.1 h with ⟨count, h⟩ | ⟨-, h⟩ <;> obtain rfl := Host.Outcome.next.inj h
    · exact .init (legalChannelCount_eq_or count)
    · exact .keep
  | s2eLoad p c q f =>
    rcases ite_eq_iff.1 h with ⟨-, h⟩ | ⟨present, h⟩ <;> obtain rfl := Host.Outcome.next.inj h
    · exact .keep
    · obtain ⟨hc, hq⟩ := channels_lt_of_not_missing present
      exact .load hc hq
  | s2eRead => obtain rfl := Host.Outcome.next.inj h; exact .keep
  | s2eSample x => obtain rfl := Host.Outcome.next.inj h; exact .sample
  | _ => exact ((exec_onlyUnit h).2 .s2e nofun : s.s2e = t.s2e) ▸ .keep

theorem exec_registersStep {i : Instr} {s t : State} (h : exec i s = .next t) : RegistersStep s t :=
  ⟨exec_a4dStep h, exec_a4eStep h, exec_s2dStep h, exec_s2eStep h⟩

theorem RegistersStep.of_same {s t : State} (h : sameRegisters s t) : RegistersStep s t := by
  obtain ⟨ha4d, ha4e, hs2d, hs2e⟩ := h
  exact ⟨ha4d ▸ .keep, ha4e ▸ .keep, hs2d ▸ .keep, hs2e ▸ .keep⟩

/-- R34: reset is, unit by unit, what the INIT commands write. -/
theorem RegistersStep.of_reset {s t : State} (h : sameRegisters State.reset t) : RegistersStep s t := by
  obtain ⟨ha4d, ha4e, hs2d, hs2e⟩ := h
  have a4d : A4dStep s.a4d State.reset.a4d := .write (st := (0, 0)) (Nat.zero_le _)
  have a4e : A4eStep s.a4e State.reset.a4e := .both (st := (0, 0)) (Nat.zero_le _) fun _ => rfl
  have s2d : S2dStep s.s2d State.reset.s2d := .init (.inl rfl)
  have s2e : S2eStep s.s2e State.reset.s2e := .init (.inl rfl)
  exact ⟨ha4d ▸ a4d, ha4e ▸ a4e, hs2d ▸ s2d, hs2e ▸ s2e⟩

/-- What a step can do: keep every register, reset every register, or run the instruction of the oldest command. -/
theorem step_cases {s t : State} (h : step s = .next t) :
    sameRegisters s t ∨ sameRegisters State.reset t ∨ ∃ i, exec i (s.withPort s.port.tail) = .next t := by
  unfold step at h
  split at h
  next =>
    obtain rfl := Host.Outcome.next.inj h
    exact .inl ⟨rfl, rfl, rfl, rfl⟩
  next k rest presented =>
    rw [presented]
    unfold runCommand at h
    split at h
    next i _ => exact .inr (.inr ⟨i, h⟩)
    next =>
      obtain rfl := Host.Outcome.next.inj h
      exact .inl ⟨rfl, rfl, rfl, rfl⟩
  next =>
    obtain rfl := Host.Outcome.next.inj h
    exact .inr (.inl ⟨rfl, rfl, rfl, rfl⟩)

theorem step_registersStep {s t : State} (h : step s = .next t) : RegistersStep s t := by
  rcases step_cases h with same | reset | ⟨i, run⟩
  · exact .of_same same
  · exact .of_reset reset
  · obtain ⟨ha4d, ha4e, hs2d, hs2e⟩ := exec_registersStep run
    exact ⟨ha4d, ha4e, hs2d, hs2e⟩

/-- Whatever a 16-bit register holds is an `int16` (R13). -/
theorem isInt16_toInt (v : BitVec 16) : isInt16 v.toInt := by
  have lower := BitVec.le_toInt v
  have upper := BitVec.toInt_lt (x := v)
  omega

/-- R30 for the channels of an SDX2 unit: the stream has one or two, and the current one is one of them. -/
structure ChannelsLegal (nch : BitVec 2) (ch : Bit) : Prop where
  count : nch.toNat = 1 ∨ nch.toNat = 2
  current : ch.toNat < nch.toNat

theorem S2dRegs.legal_iff {r : S2dRegs} : r.Legal ↔ ChannelsLegal r.nch r.ch :=
  ⟨fun ⟨count, current, _⟩ => ⟨count, current⟩, fun ⟨count, current⟩ => ⟨count, current, isInt16_toInt _, isInt16_toInt _⟩⟩

theorem S2eRegs.legal_iff {r : S2eRegs} : r.Legal ↔ ChannelsLegal r.nch r.ch :=
  ⟨fun ⟨count, current, _⟩ => ⟨count, current⟩, fun ⟨count, current⟩ => ⟨count, current, isInt16_toInt _, isInt16_toInt _⟩⟩

theorem ChannelsLegal.init {k : Nat} (count : k = 1 ∨ k = 2) : ChannelsLegal (BitVec.ofNat 2 k) 0 := by
  rcases count with rfl | rfl
  · exact ⟨.inl rfl, by decide⟩
  · exact ⟨.inr rfl, by decide⟩

/-- R100: the channel sequence stays in the stream. -/
theorem ChannelsLegal.next {nch : BitVec 2} {ch : Bit} (legal : ChannelsLegal nch ch) :
    ChannelsLegal nch (nextChannel ch nch) := by
  refine ⟨legal.count, ?_⟩
  rcases legal.count with one | two
  · simp [nextChannel, modulo, one, Nat.mod_one]
  · rw [two]
    exact (nextChannel ch nch).isLt

theorem A4dStep.legal {r r' : A4dRegs} (h : A4dStep r r') (legal : r.Legal) : r'.Legal := by
  cases h with
  | keep => exact legal
  | write inRange => exact ⟨(a4dWrite_idx _ inRange).trans_le inRange, isInt16_toInt _⟩

theorem a4eWritePair_idx {r : A4eRegs} {st : Int × Nat} (h : st.2 ≤ 88) : (a4eWritePair r st).idx.toNat = st.2 :=
  Nat.mod_eq_of_lt (by omega)

theorem A4eStep.legal {r r' : A4eRegs} (h : A4eStep r r') (legal : r.Legal) : r'.Legal := by
  cases h with
  | keep | packer => exact legal
  | pair inRange | both inRange => exact ⟨(a4eWritePair_idx (r := r) inRange).trans_le inRange, isInt16_toInt _⟩

theorem A4eStep.tidy {r r' : A4eRegs} (h : A4eStep r r') (tidy : r.phase = 0 → r.pend = 0) :
    r'.phase = 0 → r'.pend = 0 := by
  cases h with
  | keep | pair => exact tidy
  | packer tidy' | both _ tidy' => exact tidy'

theorem S2dStep.legal {r r' : S2dRegs} (h : S2dStep r r') (legal : r.Legal) : r'.Legal := by
  rw [S2dRegs.legal_iff] at legal ⊢
  cases h with
  | keep => exact legal
  | init count => exact .init count
  | load _ hq => exact ⟨legal.count, hq⟩
  | byte => exact legal.next

theorem S2eStep.legal {r r' : S2eRegs} (h : S2eStep r r') (legal : r.Legal) : r'.Legal := by
  rw [S2eRegs.legal_iff] at legal ⊢
  cases h with
  | keep => exact legal
  | init count => exact .init count
  | load _ hq => exact ⟨legal.count, hq⟩
  | sample => exact legal.next

/-- In a stream of one channel a write to a channel the stream has leaves the second register of the pair. -/
theorem channelSet1_of_mono {w : Nat} {c : Bit} {nch : BitVec 2} (hc : c.toNat < nch.toNat) (mono : nch.toNat = 1)
    (v r1 : BitVec w) : channelSet1 c v r1 = r1 :=
  if_pos (BitVec.eq_of_toNat_eq (Nat.lt_one_iff.1 (hc.trans_eq mono)))

theorem S2dStep.tidy {r r' : S2dRegs} (h : S2dStep r r') (hch : r.ch.toNat < r.nch.toNat)
    (tidy : r.nch.toNat = 1 → r.prev1 = 0) : r'.nch.toNat = 1 → r'.prev1 = 0 := by
  cases h with
  | keep => exact tidy
  | init => exact fun _ => rfl
  | load hc => exact fun mono => (channelSet1_of_mono hc mono _ _).trans (tidy mono)
  | byte => exact fun mono => (channelSet1_of_mono hch mono _ _).trans (tidy mono)

theorem s2eWrite_mono {r : S2eRegs} {c f q : Bit} {p : Int} (hc : c.toNat < r.nch.toNat)
    (tidy : r.nch.toNat = 1 → r.prev1 = 0 ∧ r.started1 = 0) (mono : r.nch.toNat = 1) :
    (s2eWrite r c p f q).prev1 = 0 ∧ (s2eWrite r c p f q).started1 = 0 :=
  ⟨(channelSet1_of_mono hc mono _ _).trans (tidy mono).1, (channelSet1_of_mono hc mono _ _).trans (tidy mono).2⟩

theorem S2eStep.tidy {r r' : S2eRegs} (h : S2eStep r r') (hch : r.ch.toNat < r.nch.toNat)
    (tidy : r.nch.toNat = 1 → r.prev1 = 0 ∧ r.started1 = 0) :
    r'.nch.toNat = 1 → r'.prev1 = 0 ∧ r'.started1 = 0 := by
  cases h with
  | keep => exact tidy
  | init => exact fun _ => ⟨rfl, rfl⟩
  | load hc => exact s2eWrite_mono hc tidy
  | sample => exact s2eWrite_mono hch tidy

theorem RegistersStep.legal {s t : State} (h : RegistersStep s t) (legal : s.Legal) : t.Legal := by
  obtain ⟨ha4d, ha4e, hs2d, hs2e⟩ := legal
  exact ⟨h.a4d.legal ha4d, h.a4e.legal ha4e, h.s2d.legal hs2d, h.s2e.legal hs2e⟩

/-- R22: `STEP` is the table's entry at an index in range. -/
theorem stepTable_getElem?_of_le {idx : BitVec 7} (h : idx.toNat ≤ 88) :
    stepTable[idx.toNat]? = some (stepField idx).toNat :=
  (stepAgrees_of_idx_le ⟨0, idx⟩ h).2

/-- Settles O11: each unit's possible steps keep its legal ranges, and `STEP` is derived from a legal index. -/
theorem legalRegistersAreKept : Obligations.LegalRegistersAreKept := by
  intro s t legal h
  have legal' : t.Legal := (step_registersStep h).legal legal
  have ⟨⟨ha4d, _⟩, ⟨ha4e, _⟩, _⟩ := legal'
  exact ⟨legal', stepTable_getElem?_of_le ha4d, stepTable_getElem?_of_le ha4e⟩

/-- Settles O13: each unit's possible steps keep the packer and the second channel tidy. -/
theorem packerAndMonoStayTidy : Obligations.PackerAndMonoStayTidy := by
  rintro s t ⟨-, -, ⟨-, hs2d, -⟩, ⟨-, hs2e, -⟩⟩ packer ⟨mono, mono'⟩ h
  have regs := step_registersStep h
  exact ⟨regs.a4e.tidy packer, regs.s2d.tidy hs2d mono, regs.s2e.tidy hs2e mono'⟩

/-- Settles O9: the reset registers are literals, and each INIT writes the same literals. -/
theorem resetStateIsInitState : Obligations.ResetStateIsInitState :=
  ⟨by decide, by decide, by decide, by decide,
    fun _ => ⟨⟨_, rfl, rfl⟩, ⟨_, rfl, rfl⟩, ⟨_, rfl, rfl⟩, ⟨_, rfl, rfl⟩⟩⟩

/-- Settles O12: every clause is about the literals of the reset state. -/
theorem resetIsLegal : Obligations.ResetIsLegal :=
  ⟨by decide, by decide, by decide, nofun⟩

end Sys2Proof.Machine
end

section
/-! PROOFS. What a step does with the oldest input, when it is a command (R45, R47, O6). -/

namespace Sys2Proof.Machine

/-- R45: the oldest command presented is taken from the port and run. -/
theorem step_of_command {s : State} {k : Command} {rest : List Input} (presented : s.port = .command k :: rest) :
    step s = runCommand k (s.withPort rest) := by
  rw [step, presented]

/-- A command whose opcode is listed runs the instruction it stands for. -/
theorem runCommand_of_decode {k : Command} {i : Instr} (decoded : decode k = .ok i) (s : State) :
    runCommand k s = exec i s := by
  rw [runCommand, decoded]

theorem step_of_decode {s : State} {k : Command} {rest : List Input} {i : Instr}
    (presented : s.port = .command k :: rest) (decoded : decode k = .ok i) : step s = exec i (s.withPort rest) :=
  (step_of_command presented).trans (runCommand_of_decode decoded _)

/-- A table word stands for the instruction that its command stands for. -/
theorem decode_commandOfTableWord {nbits w : Nat} {i : Instr} (h : decodeTableWord nbits w = some i) :
    decode (commandOfTableWord nbits w) = .ok i := by
  unfold decodeTableWord at h
  split at h
  next decoded => rw [decoded, Option.some.inj h]
  next => cases h

/-- Taking the word placed by `withFetchWord` gives back the port as it was before the placing. -/
theorem step_withFetchWord {nbits w : Nat} {i : Instr} (h : decodeTableWord nbits w = some i) (s : State) :
    step (s.withFetchWord nbits w) = exec i s :=
  step_of_decode (s := s.withFetchWord nbits w) rfl (decode_commandOfTableWord h)

/-- Settles O6: the decoded command by the rule of the step, an encoding because it decodes to its instruction, and a table word
because it is placed as the oldest command. -/
theorem stepRunsDecodedCommand : Obligations.StepRunsDecodedCommand :=
  ⟨fun _ _ _ _ => step_of_decode, fun _ _ _ wf presented => step_of_decode presented (decode_encode wf),
    fun s _ _ _ h => step_withFetchWord h s⟩

end Sys2Proof.Machine
end

section
/-! PROOFS. The operand fields of R62 as the narrowed bus, its remainder or one of its bits, and the decoder's rows in those terms
(O3, O5). -/

namespace Sys2Proof

/-- R13: a signed field is the bus narrowed to the field's width, read as two's complement. -/
theorem sextField_eq_toInt_setWidth {bits : Nat} (le : bits ≤ 64) (v : Word) :
    sextField bits v = (v.setWidth bits).toInt :=
  congrArg BitVec.toInt (bitField_zero_eq_setWidth le v)

/-- R13: an unsigned field is the bus modulo the number of values the field has. -/
theorem zextField_eq_mod {bits : Nat} (le : bits ≤ 64) (v : Word) : zextField bits v = v.toNat % 2 ^ bits := by
  rw [zextField, bitField_zero_eq_setWidth le, BitVec.toNat_setWidth]

theorem sextField_64 (v : Word) : sextField 64 v = v.toInt := by
  rw [sextField_eq_toInt_setWidth le_rfl, BitVec.setWidth_eq]

theorem sextField_16 (v : Word) : sextField 16 v = (v.setWidth 16).toInt := sextField_eq_toInt_setWidth (by decide) v

theorem zextField_8 (v : Word) : zextField 8 v = v.toNat % 256 := zextField_eq_mod (by decide) v

theorem bitField_0_4 (v : Word) : bitField v 0 4 = v.setWidth 4 := bitField_zero_eq_setWidth (by decide) v

theorem bitField_0_8 (v : Word) : bitField v 0 8 = v.setWidth 8 := bitField_zero_eq_setWidth (by decide) v

/-- A field of one bit is that bit of the bus. -/
theorem bitField_one_eq_ofBool (v : Word) (lo : Nat) : bitField v lo 1 = BitVec.ofBool (v.getLsbD lo) := by
  apply BitVec.eq_of_getLsbD_eq
  intro j hj
  obtain rfl := Nat.lt_one_iff.1 hj
  simp [bitField]

/-- Settles O3, unit by unit from the decoder's rows, each field in the terms of R62. -/
theorem decodeReadsNamedFields : Obligations.DecodeReadsNamedFields := by
  intro a b c
  refine ⟨?clu, ?a4d, ?a4e, ?s2d, ?s2e⟩
  case clu => simp only [decode_cluClamp16, decode_cluClamp, sextField_64, and_self]
  case a4d =>
    simp only [decode_a4dInit, decode_a4dLoad, decode_a4dRead, decode_a4dSym, decode_a4dByte, decode_a4dHigh, sextField_16,
      zextField_8, bitField_0_4, bitField_0_8, and_self]
  case a4e =>
    simp only [decode_a4eInit, decode_a4eLoad, decode_a4eRead, decode_a4eSym, decode_a4ePush, decode_a4eFlush, sextField_16,
      zextField_8, bitField_0_4, bitField_one_eq_ofBool, and_self]
  case s2d =>
    simp only [decode_s2dInit, decode_s2dLoad, decode_s2dRead, decode_s2dByte, sextField_16, zextField_8, bitField_0_8,
      bitField_one_eq_ofBool, and_self]
  case s2e =>
    simp only [decode_s2eInit, decode_s2eLoad, decode_s2eRead, decode_s2eSample, sextField_16, zextField_8,
      bitField_one_eq_ofBool, and_self]

/-- Settles O5: every word is a literal, so the decoder computes its instruction. -/
theorem wordsOfEachUnitDecode : Obligations.WordsOfEachUnitDecode := by
  unfold Obligations.WordsOfEachUnitDecode
  decide

end Sys2Proof
end

section
/-! PROOFS. Which commands decode (R54, R55), and the three things a command can do: raise `IllegalOp`, raise `InvalidArgument` or
complete (O4, O14). -/

namespace Sys2Proof.Machine

/-- The opcodes of R54 are those of the decoder's rows. -/
theorem listedOpcodes_eq_map_op : listedOpcodes = opcodeTable.map OpcodeRow.op := rfl

/-- R54, R55: exactly the commands with a listed opcode are instructions. -/
theorem exists_decode_eq_ok_iff {k : Command} : (∃ i, decode k = .ok i) ↔ k.op ∈ listedOpcodes := by
  rw [listedOpcodes_eq_map_op, List.mem_map]
  constructor
  · rintro ⟨i, decoded⟩
    obtain ⟨row, mem, same, -⟩ := exists_row_of_decode_eq_ok decoded
    exact ⟨row, mem, same⟩
  · rintro ⟨row, mem, same⟩
    have isSome : (opcodeTable.find? fun row => row.op == k.op).isSome :=
      List.find?_isSome.2 ⟨row, mem, beq_iff_eq.2 same⟩
    obtain ⟨first, found⟩ := Option.isSome_iff_exists.1 isSome
    exact ⟨first.build k, by rw [decode, found]⟩

/-- R55: a reserved opcode raises `IllegalOp`. -/
theorem runCommand_of_reserved {k : Command} (reserved : k.op ∉ listedOpcodes) (s : State) :
    runCommand k s = raiseIllegalOp s := by
  unfold runCommand
  split
  next i decoded => exact absurd (exists_decode_eq_ok_iff.1 ⟨i, decoded⟩) reserved
  next => rfl

/-- R54: 22 of the 256 opcodes are listed, no two alike. -/
theorem length_reservedOpcodes :
    ((List.range 256).filter (fun n => decide (BitVec.ofNat 8 n ∉ listedOpcodes))).length = 234 := by
  decide +kernel

/-- Settles O4: a reserved opcode is found in no row of the decoder, a listed one in some row, and the opcodes are counted. -/
theorem reservedOpcodeRaisesIllegalOp : Obligations.ReservedOpcodeRaisesIllegalOp := by
  refine ⟨fun k s rest reserved presented => ?_, fun _ => exists_decode_eq_ok_iff, length_reservedOpcodes⟩
  exact (step_of_command presented).trans (runCommand_of_reserved reserved _)

/-- What R171 rejects depends on registers, not on the inputs still presented. -/
theorem rejects_withPort_iff {i : Instr} {s : State} {p : List Input} : rejects i (s.withPort p) ↔ rejects i s := by
  cases i <;> rfl

/-- R52, R170: a command raises `IllegalOp`, raises `InvalidArgument` or completes, and when it does which. -/
theorem runCommand_cases (k : Command) (s : State) :
    (k.op ∉ listedOpcodes ∧ runCommand k s = raiseIllegalOp s)
      ∨ ∃ i, decode k = .ok i ∧ ((rejects i s ∧ runCommand k s = raiseInvalidArgument s)
        ∨ (¬ rejects i s ∧ ∃ y t, runCommand k s = complete y t)) := by
  by_cases listed : k.op ∈ listedOpcodes
  · obtain ⟨i, decoded⟩ := exists_decode_eq_ok_iff.2 listed
    rw [runCommand_of_decode decoded]
    by_cases rejected : rejects i s
    · exact .inr ⟨i, decoded, .inl ⟨rejected, exec_of_rejects rejected⟩⟩
    · exact .inr ⟨i, decoded, .inr ⟨rejected, exec_of_not_rejects rejected⟩⟩
  · exact .inl ⟨listed, runCommand_of_reserved listed s⟩

/-- Settles O14: each of the three things a command can do has its own `ERR`, and raising writes no register. -/
theorem errorCodesAndNoPartialEffect : Obligations.ErrorCodesAndNoPartialEffect := by
  intro s k rest presented
  rw [step_of_command presented]
  have unchanged (r : Response) : sameRegisters s ((s.withPort rest).withRsp (some r)) := ⟨rfl, rfl, rfl, rfl⟩
  rcases runCommand_cases k (s.withPort rest) with ⟨reserved, run⟩ | ⟨i, decoded, ⟨rejected, run⟩ | ⟨accepted, y, t, run⟩⟩
  · have notRejected : ¬ ∃ i, decode k = .ok i ∧ rejects i s :=
      fun ⟨i, decoded, _⟩ => reserved (exists_decode_eq_ok_iff.1 ⟨i, decoded⟩)
    exact ⟨_, ⟨0, 2⟩, run, rfl, by decide, iff_of_true rfl reserved, iff_of_false (by decide) notRejected,
      fun _ => ⟨rfl, unchanged _⟩⟩
  · have listed := exists_decode_eq_ok_iff.1 ⟨i, decoded⟩
    exact ⟨_, ⟨0, 1⟩, run, rfl, by decide, iff_of_false (by decide) (not_not_intro listed),
      iff_of_true rfl ⟨i, decoded, rejects_withPort_iff.1 rejected⟩, fun _ => ⟨rfl, unchanged _⟩⟩
  · have listed := exists_decode_eq_ok_iff.1 ⟨i, decoded⟩
    have notRejected : ¬ ∃ j, decode k = .ok j ∧ rejects j s := by
      rintro ⟨j, decoded', rejected⟩
      obtain rfl := Except.ok.inj (decoded.symm.trans decoded')
      exact accepted (rejects_withPort_iff.2 rejected)
    exact ⟨_, ⟨y, 0⟩, run, rfl, .inl rfl, iff_of_false (by simp) (not_not_intro listed),
      iff_of_false (by simp) notRejected, fun nonzero => absurd rfl nonzero⟩

end Sys2Proof.Machine
end

section
/-! PROOFS. The fields of a result bus filled from the low end upwards, and what A4D's registers and the sign-extended result hold
after an `ADP4_UPDATE` (R14, R22, R73). -/

namespace Sys2Proof.Machine

/-- The bus holds `a`, and no bit from `hi` up is set: what a meaning that sets its fields in ascending order keeps. -/
structure BusHolds (y : Word) (a hi : Nat) : Prop where
  value : y.toNat = a
  below : a < 2 ^ hi

/-- The first field set is the value of the bus. -/
theorem BusHolds.first {w : Nat} (v : BitVec w) (fits : w ≤ 64 := by decide) : BusHolds (setField yZero 0 v) v.toNat w := by
  refine ⟨?_, v.isLt⟩
  simpa [yZero] using setField_toNat yZero 0 v (by omega) (by decide)

/-- A field set above all others adds its value at its place. -/
theorem BusHolds.setField {y : Word} {a hi lo w : Nat} (h : BusHolds y a hi) (v : BitVec w)
    (above : hi ≤ lo := by decide) (fits : lo + w ≤ 64 := by decide) :
    BusHolds (setField y lo v) (a + 2 ^ lo * v.toNat) (lo + w) := by
  have below : a < 2 ^ lo := h.below.trans_le (Nat.pow_le_pow_right (by decide) above)
  refine ⟨by rw [setField_toNat y lo v fits (h.value ▸ below), h.value], ?_⟩
  calc a + 2 ^ lo * v.toNat < 2 ^ lo * (v.toNat + 1) := by rw [Nat.mul_succ]; omega
    _ ≤ 2 ^ lo * 2 ^ w := Nat.mul_le_mul_left _ v.isLt
    _ = 2 ^ (lo + w) := (Nat.pow_add ..).symm

/-- R22: `STEP` is the table's entry at the index, where it has one. -/
theorem stepField_toNat {idx : BitVec 7} {step : Nat} (entry : stepTable[idx.toNat]? = some step) :
    (stepField idx).toNat = step := by
  have fits := stepTable_fits step (List.mem_of_getElem? entry)
  simp only [stepField, stepSize, entry, BitVec.toNat_ofNat, Nat.mod_eq_of_lt fits]

/-- Writing A4D's registers loses nothing of an `int16` predictor and an index in range (R14). -/
theorem pair_a4dWrite {st : Int × Nat} (pred : isInt16 st.1) (idx : st.2 ≤ 88) : (a4dWrite st).pair = st :=
  Prod.ext (bitsOf_16_toInt _ pred.1 pred.2) (a4dWrite_idx _ idx)

@[simp] theorem pair_a4dWrite_adp4Update (st : Int × Nat) (n : Nibble) :
    (a4dWrite (adp4Update st n)).pair = adp4Update st n :=
  pair_a4dWrite (adp4Update_mem st n).1 (adp4Update_mem st n).2

theorem pred_a4dWrite_adp4Update (st : Int × Nat) (n : Nibble) :
    (a4dWrite (adp4Update st n)).pred.toInt = (adp4Update st n).1 :=
  congrArg Prod.fst (pair_a4dWrite_adp4Update st n)

/-- The new predictor is answered sign-extended (R77, R79). -/
theorem bitsOf_64_adp4Update (st : Int × Nat) (n : Nibble) :
    (bitsOf 64 (adp4Update st n).1).toInt = (adp4Update st n).1 := by
  obtain ⟨⟨lower, upper⟩, -⟩ := adp4Update_mem st n
  exact bitsOf_64_toInt _ (by omega) (by omega)

end Sys2Proof.Machine
end

section
/-! PROOFS. The ADP4 functions in the terms of R71 to R73 (O22, O23), and the range of every clamp's argument (R138, O21). -/

namespace Sys2Proof.Machine

/-- A value that bit `i` of a symbol selects is that bit times the value. -/
theorem ite_getLsbD_eq_mul (n : Nibble) (i v : Nat) : (if n.getLsbD i then v else 0) = n.toNat / 2 ^ i % 2 * v := by
  rw [BitVec.getLsbD, Nat.testBit_eq_decide_div_mod_eq]
  rcases Nat.mod_two_eq_zero_or_one (n.toNat / 2 ^ i) with bit | bit <;> simp [bit]

/-- The sign bit of a symbol (R57). -/
theorem getLsbD_three_iff (n : Nibble) : n.getLsbD 3 = true ↔ 8 ≤ n.toNat := by
  have := n.isLt
  rw [BitVec.getLsbD, Nat.testBit_eq_decide_div_mod_eq, decide_eq_true_iff]
  omega

/-- The magnitude of the reconstructed difference (R71). -/
def adp4Magnitude (step : Nat) (n : Nibble) : Nat :=
  step / 8 + n.toNat / 4 % 2 * step + n.toNat / 2 % 2 * (step / 2) + n.toNat % 2 * (step / 4)

theorem adp4Diff_eq (step : Nat) (n : Nibble) :
    adp4Diff step n = (if 8 ≤ n.toNat then -1 else 1) * (adp4Magnitude step n : Int) := by
  simp only [adp4Diff, getLsbD_three_iff, ite_getLsbD_eq_mul, Nat.shiftRight_eq_div_pow, adp4Magnitude]
  split <;> simp

/-- Each magnitude bit selects at most its whole part of the step size. -/
theorem adp4Magnitude_le {step : Nat} (largest : step ≤ 32767) (n : Nibble) : adp4Magnitude step n ≤ 61436 := by
  have bit2 : n.toNat / 4 % 2 * step ≤ step := mul_le_of_le_one_left (Nat.zero_le _) (by omega)
  have bit1 : n.toNat / 2 % 2 * (step / 2) ≤ step / 2 := mul_le_of_le_one_left (Nat.zero_le _) (by omega)
  have bit0 : n.toNat % 2 * (step / 4) ≤ step / 4 := mul_le_of_le_one_left (Nat.zero_le _) (by omega)
  unfold adp4Magnitude
  omega

/-- The largest step size of `STEP_TABLE` is its last (R23). -/
theorem stepTable_le : ∀ step ∈ stepTable, step ≤ 32767 := by decide

theorem adp4Diff_mem {step : Nat} (entry : step ∈ stepTable) (n : Nibble) :
    -61436 ≤ adp4Diff step n ∧ adp4Diff step n ≤ 61436 := by
  have bound := adp4Magnitude_le (stepTable_le step entry) n
  rw [adp4Diff_eq]
  split <;> omega

/-- Settles O22: the bits select by multiplication, and every step size of the table is at most the last one. -/
theorem reconstructedDifference : Obligations.ReconstructedDifference :=
  ⟨adp4Diff_eq, fun _ entry => adp4Diff_mem entry, by decide, by decide⟩

/-- For ordered bounds `CLAMP` is also `max(lo, min(x, hi))`. -/
theorem clamp_eq_max_min (x lo hi : Int) (h : lo ≤ hi) : clamp x lo hi = max lo (min x hi) := by
  rw [clamp_eq_min_max x lo hi h]
  omega

/-- R24: the index table goes by the three magnitude bits. -/
theorem indexDeltaOf_eq (n : Nibble) :
    indexDeltaOf n = if n.toNat % 8 < 4 then -1 else 2 * ((n.toNat % 8 : Nat) : Int) - 6 := by
  revert n
  decide

theorem indexDeltaOf_mem (n : Nibble) : -1 ≤ indexDeltaOf n ∧ indexDeltaOf n ≤ 8 := by
  rw [indexDeltaOf_eq]
  split <;> omega

theorem stepSize_of_entry {i step : Nat} (entry : stepTable[i]? = some step) : stepSize i = step := by
  rw [stepSize, entry]

theorem length_stepTable : stepTable.length = 89 := by decide

/-- Settles O23: both components are clamps with ordered bounds. -/
theorem adpStateTransition : Obligations.AdpStateTransition := by
  refine ⟨length_stepTable, fun p i step n entry => ?_⟩
  have pred : clamp16 (p + adp4Diff step n) = max (-32768) (min (p + adp4Diff step n) 32767) :=
    clamp_eq_max_min _ _ _ (by decide)
  have idx := clamp_eq_max_min ((i : Int) + indexDeltaOf n) 0 88 (by decide)
  rw [indexDeltaOf_eq] at idx
  rw [adp4Update, stepSize_of_entry entry, pred, adp4NextIdx, indexDeltaOf_eq]
  exact congrArg (fun z : Int => (_, z.toNat)) idx

/-- An index in range has its step size in the table. -/
theorem stepSize_mem {i : Nat} (inRange : i ≤ 88) : stepSize i ∈ stepTable := by
  have lt : i < stepTable.length := by rw [length_stepTable]; omega
  rw [stepSize_of_entry (List.getElem?_eq_getElem lt)]
  exact List.getElem_mem lt

/-- R103: the value a byte carries; bit 0 being cleared, the greatest is 126. -/
theorem mval_mem (b : Byte) : -128 ≤ mval b ∧ mval b ≤ 126 := by
  revert b
  decide +kernel

/-- R101: the signed square over the values that bytes carry. -/
theorem sdx2Sq_mem {m : Int} (lower : -128 ≤ m) (upper : m ≤ 126) : -32768 ≤ sdx2Sq m ∧ sdx2Sq m ≤ 31752 := by
  unfold sdx2Sq
  rcases Int.natAbs_eq m with h | h <;> constructor <;> nlinarith [m.natAbs.zero_le]

/-- R115: the climb never passes a bound at whose successor the test fails. -/
theorem rsqClimb_le {x bound : Nat} (fails : ¬ 2 * (bound + 1) * (bound + 1) - 2 * (bound + 1) < x) (fuel : Nat) {k : Nat}
    (below : k ≤ bound) : rsqClimb x fuel k ≤ bound := by
  induction fuel generalizing k with
  | zero => exact below
  | succ fuel ih =>
    unfold rsqClimb
    split
    next passes =>
      have ne : k ≠ bound := by rintro rfl; exact fails passes
      exact ih (by omega)
    next => exact below

theorem rsq_le {x : Nat} (h : x ≤ 32768) : rsq x ≤ 128 :=
  rsqClimb_le (by omega) x (Nat.zero_le _)

theorem scode_mem {v : Int} (lower : -32768 ≤ v) (upper : v ≤ 32768) : -128 ≤ scode v ∧ scode v ≤ 128 := by
  have bound := rsq_le (x := v.natAbs) (by omega)
  unfold scode
  split <;> omega

/-- Settles O21, row by row of R138 from the range of each summand. -/
theorem clampArgumentRanges : Obligations.ClampArgumentRanges := by
  refine ⟨?adp4, ?sdx2, fun v => scode_mem⟩
  case adp4 =>
    rintro p x i n ⟨pLower, pUpper⟩ ⟨xLower, xUpper⟩ inRange
    obtain ⟨diffLower, diffUpper⟩ := adp4Diff_mem (stepSize_mem inRange) n
    obtain ⟨deltaLower, deltaUpper⟩ := indexDeltaOf_mem n
    omega
  case sdx2 =>
    rintro b prev ⟨prevLower, prevUpper⟩
    obtain ⟨mLower, mUpper⟩ := mval_mem b
    obtain ⟨sqLower, sqUpper⟩ := sdx2Sq_mem mLower mUpper
    omega

end Sys2Proof.Machine
end

section
/-! PROOFS. The commands of A4D and the READ commands of every unit, one by one (R74 to R79, R87, R89, R107, R125; O25 to O30). -/

namespace Sys2Proof.Machine

/-- R12: the high nibble is the byte divided by 16. -/
theorem highNibble_eq_ofNat (b : Byte) : highNibble b = BitVec.ofNat 4 (b.toNat / 16) := by
  rw [highNibble, BitVec.extractLsb', Nat.shiftRight_eq_div_pow]

/-- R12: the low nibble is the byte modulo 16. -/
theorem lowNibble_eq_ofNat (b : Byte) : lowNibble b = BitVec.ofNat 4 (b.toNat % 16) := by
  apply BitVec.eq_of_toNat_eq
  simp [lowNibble]

/-- Settles O27: each READ sets its fields in ascending order on an empty bus. -/
theorem readCommandsReportEveryRegister : Obligations.ReadCommandsReportEveryRegister := by
  refine ⟨decode_a4dRead, decode_a4eRead, decode_s2dRead, decode_s2eRead, fun s => ⟨?a4d, ?a4e, ?s2d, ?s2e⟩⟩
  case a4d =>
    intro step entry
    rw [← stepField_toNat entry]
    exact ⟨_, rfl, (((BusHolds.first _).setField _).setField _).value⟩
  case a4e =>
    intro step entry
    rw [← stepField_toNat entry]
    exact ⟨_, rfl, (((((BusHolds.first _).setField _).setField _).setField _).setField _).value⟩
  case s2d => exact ⟨_, rfl, ((((BusHolds.first _).setField _).setField _).setField _).value⟩
  case s2e => exact ⟨_, rfl, ((((((BusHolds.first _).setField _).setField _).setField _).setField _).setField _).value⟩

/-- R77: decoding a symbol updates A4D by it and answers the new predictor. -/
theorem exec_a4dSym (n : Nibble) (s : State) :
    ∃ t y, exec (.a4dSym n) s = .next t ∧ t.a4d = a4dWrite (adp4Update s.a4d.pair n) ∧ t.rsp = some ⟨y, 0⟩
      ∧ y.toInt = t.a4d.pred.toInt :=
  ⟨_, _, rfl, rfl, rfl, (bitsOf_64_adp4Update _ n).trans (pred_a4dWrite_adp4Update _ n).symm⟩

/-- R79: `A4D.HIGH` is `A4D.SYM` on the high nibble. -/
theorem exec_a4dHigh (b : Byte) (s : State) : exec (.a4dHigh b) s = exec (.a4dSym (highNibble b)) s := rfl

/-- Settles O28: what A4D holds is what was written to it, since `ADP4_UPDATE` gives what its registers can hold. -/
theorem decodeOneSymbol : Obligations.DecodeOneSymbol := by
  refine ⟨fun a b c => by rw [decode_a4dSym, bitField_0_4], fun n s => ?_⟩
  obtain ⟨t, y, run, written, answer, value⟩ := exec_a4dSym n s
  have pair : t.a4d.pair = adp4Update s.a4d.pair n := by rw [written, pair_a4dWrite_adp4Update]
  exact ⟨t, y, run, pair, answer, value, exec_onlyUnit run⟩

/-- Settles O29: two updates in order, and two fields in ascending order. -/
theorem decodeOneByte : Obligations.DecodeOneByte := by
  refine ⟨fun a b c => by rw [decode_a4dByte, bitField_0_8], fun b s => ?_⟩
  rw [← highNibble_eq_ofNat, ← lowNibble_eq_ofNat]
  exact ⟨_, _, rfl, pair_a4dWrite_adp4Update _ _, rfl, ((BusHolds.first _).setField _).value,
    exec_onlyUnit (i := .a4dByte b) rfl⟩

/-- Settles O30, from O28 for the high nibble. -/
theorem decodeHighNibbleOnly : Obligations.DecodeHighNibbleOnly := by
  refine ⟨fun a b c => by rw [decode_a4dHigh, bitField_0_8], fun b s => ?_⟩
  rw [exec_a4dHigh, ← highNibble_eq_ofNat]
  exact decodeOneSymbol.2 (highNibble b) s

/-- R74, R76: the fresh stream's registers are all 0, so the answer is the step size at index 0. -/
theorem exec_a4dRead_of_fresh {s : State} (fresh : s.a4d = ⟨0, 0⟩) :
    exec .a4dRead s = .next (s.withRsp (some ⟨0x0000000007000000, 0⟩)) := by
  have answer : setField (setField (setField yZero 0 s.a4d.pred) 16 s.a4d.idx) 24 (stepField s.a4d.idx) = 0x0000000007000000 := by
    rw [fresh]
    decide
  exact congrArg (fun y => complete y s) answer

/-- R87, R89: as for A4D, the packer being empty. -/
theorem exec_a4eRead_of_fresh {s : State} (fresh : s.a4e = ⟨0, 0, 0, 0⟩) :
    exec .a4eRead s = .next (s.withRsp (some ⟨0x0000000007000000, 0⟩)) := by
  have answer : setField (setField (setField (setField (setField yZero 0 s.a4e.pred) 16 s.a4e.idx) 24 (stepField s.a4e.idx))
      40 s.a4e.pend) 48 s.a4e.phase = 0x0000000007000000 := by
    rw [fresh]
    decide
  exact congrArg (fun y => complete y s) answer

/-- Settles O25: INIT writes literals, whatever the state held. -/
theorem adpInitStartsFresh : Obligations.AdpInitStartsFresh := by
  refine ⟨decode_a4dInit, decode_a4eInit, fun s => ⟨?a4d, ?a4e⟩⟩
  case a4d =>
    exact ⟨_, rfl, rfl, rfl, rfl, rfl, exec_onlyUnit (i := .a4dInit) rfl, rfl, exec_a4dRead_of_fresh rfl⟩
  case a4e =>
    exact ⟨_, rfl, rfl, rfl, rfl, rfl, rfl, rfl, exec_onlyUnit (i := .a4eInit) rfl, exec_a4eRead_of_fresh rfl⟩

/-- Settles O26: an index in range is written, one above it is rejected. -/
theorem decoderLoad : Obligations.DecoderLoad := by
  refine ⟨fun a b c => by rw [decode_a4dLoad, sextField_16, zextField_8], fun p i s pred => ?_⟩
  refine ⟨fun idx => ?_, fun idx => ?_⟩
  · have loaded := pair_a4dWrite (st := (p, i)) pred idx
    have run : exec (.a4dLoad p i) s = complete yZero (s.withA4d (a4dWrite (p, i))) := if_neg (Nat.not_lt.2 idx)
    exact ⟨_, run, congrArg Prod.fst loaded, congrArg Prod.snd loaded, rfl, exec_onlyUnit run⟩
  · exact exec_of_rejects (i := .a4dLoad p i) idx

end Sys2Proof.Machine
end

section
/-! PROOFS. A4D in the state of A4E's predictor follows it, symbol by symbol (R86, R93, O49), and silence keeps the predictor at
rest (R94, O50). -/

namespace Sys2Proof.Machine

/-- A4E's predictor state as A4D would hold it (R25). -/
def A4eRegs.predictor (r : A4eRegs) : A4dRegs := ⟨r.pred, r.idx⟩

theorem A4eRegs.pair_predictor (r : A4eRegs) : r.predictor.pair = r.pair := rfl

/-- R90, R91: coding a sample with either command reports its symbol and updates the predictor by it. -/
theorem exec_codeSample (push : Bool) (x : Int) (s : State) :
    ∃ t, exec (codeSample push x) s = .next t ∧ symbolOf push t = a4eSymbol x s.a4e
      ∧ t.a4e.predictor = a4dWrite (adp4Update s.a4e.pair (a4eSymbol x s.a4e)) := by
  have reported (y : Word) (lo : Nat) (below : lo + 4 ≤ 16) (p : Int) :
      bitField (setField (setField y lo (a4eSymbol x s.a4e)) 16 (bitsOf 16 p)) lo 4 = a4eSymbol x s.a4e := by
    rw [bitField_setField_apart _ _ _ _ (by omega) (.inl below), bitField_setField_same _ _ _ (by omega)]
  cases push with
  | false => exact ⟨_, rfl, reported _ 0 (by decide) _, rfl⟩
  | true =>
    by_cases first : s.a4e.phase = 0
    · exact ⟨_, if_pos first, reported _ 12 (by decide) _, rfl⟩
    · exact ⟨_, if_neg first, reported _ 12 (by decide) _, rfl⟩

/-- The key step of R93: where A4D is in A4E's predictor state, decoding the symbol just reported leads it to A4E's new one. -/
theorem exec_a4dSym_follows {s s' : State} (same : s'.a4d = s.a4e.predictor) (push : Bool) (x : Int) :
    ∃ t t', exec (codeSample push x) s = .next t ∧ exec (.a4dSym (symbolOf push t)) s' = .next t'
      ∧ t'.a4d = t.a4e.predictor ∧ t'.ySigned? = some t.a4e.pred.toInt := by
  obtain ⟨t, coded, symbol, predictor⟩ := exec_codeSample push x s
  obtain ⟨t', y, decoded, written, answer, value⟩ := exec_a4dSym (symbolOf push t) s'
  have follows : t'.a4d = t.a4e.predictor := by rw [written, predictor, symbol, same, A4eRegs.pair_predictor]
  have emitted : t'.ySigned? = some t.a4e.pred.toInt := by
    rw [State.ySigned?, answer, Option.map_some, value, follows, A4eRegs.predictor]
  exact ⟨t, t', coded, decoded, follows, emitted⟩

/-- Settles O49, by induction over the samples from `exec_a4dSym_follows`. -/
theorem encoderAndDecoderTracesAgree : Obligations.EncoderAndDecoderTracesAgree := by
  intro xs
  induction xs with
  | nil => exact fun _ _ _ _ => ⟨rfl, rfl, rfl, rfl⟩
  | cons x xs ih =>
    intro s s' pred idx
    have same : s'.a4d = s.a4e.predictor := by
      rw [A4eRegs.predictor, ← pred, ← idx]
    obtain ⟨t, t', coded, decoded, follows, answer⟩ := exec_a4dSym_follows same x.1 x.2
    have pred' : t'.a4d.pred = t.a4e.pred := congrArg A4dRegs.pred follows
    have idx' : t'.a4d.idx = t.a4e.idx := congrArg A4dRegs.idx follows
    obtain ⟨coders, decoders, answers, states⟩ := ih t t' pred' idx'
    simp only [List.map_cons, execTrace_cons _ coded, List.zip_cons_cons, execTrace_cons _ decoded]
    exact ⟨congrArg (· + 1) coders, congrArg (· + 1) decoders, congrArg₂ List.cons answer answers,
      congrArg₂ List.cons (congrArg₂ Prod.mk pred' idx') states⟩

/-- R94: at rest, a zero sample has symbol 0 and leaves the predictor at rest; this is where `INDEX_DELTA[0] = -1` enters. -/
theorem exec_codeSample_zero {s : State} (rest : s.a4e.predictor = ⟨0, 0⟩) (push : Bool) :
    ∃ t, exec (codeSample push 0) s = .next t ∧ symbolOf push t = 0 ∧ t.a4e.predictor = ⟨0, 0⟩ := by
  obtain ⟨t, coded, symbol, predictor⟩ := exec_codeSample push 0 s
  have atRest : s.a4e.pair = (0, 0) := congrArg A4dRegs.pair rest
  have symbolZero : a4eSymbol 0 s.a4e = 0 := by rw [a4eSymbol, atRest]; decide
  rw [symbolZero] at symbol predictor
  exact ⟨t, coded, symbol, by rw [predictor, atRest]; decide⟩

/-- Settles O50, by induction over the samples from `exec_codeSample_zero`. -/
theorem silenceStaysSilence : Obligations.SilenceStaysSilence := by
  intro pushes
  induction pushes with
  | nil => exact fun _ _ _ => ⟨rfl, rfl, nofun⟩
  | cons push pushes ih =>
    intro s pred idx
    have rest : s.a4e.predictor = ⟨0, 0⟩ := by rw [A4eRegs.predictor, pred, idx]
    obtain ⟨t, coded, symbol, rest'⟩ := exec_codeSample_zero rest push
    have pred' : t.a4e.pred = 0 := congrArg A4dRegs.pred rest'
    have idx' : t.a4e.idx = 0 := congrArg A4dRegs.idx rest'
    obtain ⟨length, symbols, silent⟩ := ih t pred' idx'
    simp only [List.map_cons, execTrace_cons _ coded]
    refine ⟨congrArg (· + 1) length, ?_, List.forall_mem_cons.2 ⟨⟨pred', idx'⟩, silent⟩⟩
    exact congrArg₂ List.cons symbol symbols

end Sys2Proof.Machine
end

section
/-! PROOFS. Running A4D (R80): every command answers, the samples a run emits depend on A4D alone, and a run may be cut
anywhere. -/

namespace Sys2Proof.Machine

/-- Every command answers a next state with a response. -/
theorem exists_exec_eq_next (i : Instr) (s : State) : ∃ t r, exec i s = .next t ∧ t.rsp = some r := by
  by_cases rejected : rejects i s
  · exact ⟨_, _, exec_of_rejects rejected, rfl⟩
  · obtain ⟨y, t, completes⟩ := exec_of_not_rejects rejected
    exact ⟨_, _, completes, rfl⟩

/-- Only a command of A4D emits samples. -/
theorem samplesIn_of_unitOf_ne {i : Instr} (other : unitOf i ≠ .a4d) (r : Response) : samplesIn i r = [] := by
  cases i with
  | a4dInit | a4dLoad | a4dRead | a4dSym | a4dByte | a4dHigh => exact absurd rfl other
  | _ => rfl

/-- Whatever the other units hold, a command leaves the same registers in A4D and emits the same samples. -/
theorem exec_same_a4d {i : Instr} {s s' t t' : State} {r r' : Response} (same : s.a4d = s'.a4d) (h : exec i s = .next t)
    (h' : exec i s' = .next t') (answer : t.rsp = some r) (answer' : t'.rsp = some r') :
    t.a4d = t'.a4d ∧ samplesIn i r = samplesIn i r' := by
  by_cases own : unitOf i = .a4d
  · obtain ⟨registers, answers⟩ := exec_sameUnit (by rw [own]; exact same) h h'
    rw [own] at registers
    rw [answer, answer'] at answers
    exact ⟨registers, congrArg (samplesIn i) (Option.some.inj answers)⟩
  · have kept : s.a4d = t.a4d := (exec_onlyUnit h).2 .a4d (Ne.symm own)
    have kept' : s'.a4d = t'.a4d := (exec_onlyUnit h').2 .a4d (Ne.symm own)
    exact ⟨kept.symm.trans (same.trans kept'), by rw [samplesIn_of_unitOf_ne own, samplesIn_of_unitOf_ne own]⟩

/-- R80 (a): a command writes no index but one in range. -/
theorem A4dStep.stepAgrees {r r' : A4dRegs} (h : A4dStep r r') (agrees : r.StepAgrees) : r'.StepAgrees := by
  cases h with
  | keep => exact agrees
  | write inRange => exact stepAgrees_of_idx_le _ ((a4dWrite_idx _ inRange).trans_le inRange)

/-- R80 (b): what a command emits is an `int16`, either a 16-bit field or the sign-extended predictor. -/
theorem isInt16_of_mem_samplesIn {i : Instr} {s t : State} {r : Response} (h : exec i s = .next t) (answer : t.rsp = some r) :
    ∀ x ∈ samplesIn i r, isInt16 x := by
  cases i with
  | a4dSym | a4dHigh =>
    obtain rfl := Host.Outcome.next.inj h
    obtain rfl := Option.some.inj answer
    exact List.forall_mem_singleton.2 ((bitsOf_64_adp4Update _ _).symm ▸ (adp4Update_mem _ _).1)
  | a4dByte => exact List.forall_mem_cons.2 ⟨isInt16_toInt _, List.forall_mem_singleton.2 (isInt16_toInt _)⟩
  | _ => exact nofun

theorem isInt16_of_mem_emittedSamples (is : List Instr) (s : State) : ∀ x ∈ emittedSamples is s, isInt16 x := by
  induction is generalizing s with
  | nil => exact nofun
  | cons i is ih =>
    obtain ⟨t, r, h, answer⟩ := exists_exec_eq_next i s
    rw [emittedSamples_cons is h answer]
    exact List.forall_mem_append.2 ⟨isInt16_of_mem_samplesIn h answer, ih t⟩

/-- R80 (c): the samples a run emits are decided by A4D's registers and the commands. -/
theorem emittedSamples_congr (is : List Instr) {s s' : State} (same : s.a4d = s'.a4d) :
    emittedSamples is s = emittedSamples is s' := by
  induction is generalizing s s' with
  | nil => rfl
  | cons i is ih =>
    obtain ⟨t, r, h, answer⟩ := exists_exec_eq_next i s
    obtain ⟨t', r', h', answer'⟩ := exists_exec_eq_next i s'
    obtain ⟨registers, samples⟩ := exec_same_a4d same h h' answer answer'
    rw [emittedSamples_cons is h answer, emittedSamples_cons is h' answer', samples, ih registers]

/-- R80 (c): a run cut in two, A4D's registers carried over the cut, emits what it emits whole. -/
theorem emittedSamples_append (is js : List Instr) {s s' : State}
    (carried : s'.a4d = (((execTrace is s).getLast?).getD s).a4d) :
    emittedSamples (is ++ js) s = emittedSamples is s ++ emittedSamples js s' := by
  induction is generalizing s with
  | nil => exact emittedSamples_congr js carried.symm
  | cons i is ih =>
    obtain ⟨t, r, h, answer⟩ := exists_exec_eq_next i s
    rw [execTrace_cons is h, List.getLast?_cons] at carried
    rw [List.cons_append, emittedSamples_cons _ h answer, emittedSamples_cons _ h answer, ih carried, List.append_assoc]

end Sys2Proof.Machine
end

section
/-! PROOFS. `ADP4_DECODE` (R151) as a relation without the loop's accumulator, and its cut after an even count (R80 (c), R158;
O55, O59). -/

namespace Sys2Proof.Machine

/-- Issuing a well-formed instruction runs it, and every command answers. -/
theorem exists_issue_eq {i : Instr} (wf : i.wellFormed = true) (s : State) :
    ∃ t r, exec i s = .next t ∧ t.rsp = some r ∧ issue i s = some (t, r) := by
  obtain ⟨t, r, h, answer⟩ := exists_exec_eq_next i s
  have stepped : step (s.present (encode i)) = .next t :=
    (step_of_decode (s := s.present (encode i)) rfl (decode_encode wf)).trans h
  exact ⟨t, r, h, answer, by rw [issue, stepped, answered, answer]⟩

/-- Issued in two states with the same A4D, an A4D command has one response and leaves the same A4D. -/
theorem issue_same_a4d {i : Instr} (wf : i.wellFormed = true) (own : unitOf i = .a4d) {s s' t : State} {r : Response}
    (same : s.a4d = s'.a4d) (issued : issue i s = some (t, r)) :
    ∃ t', issue i s' = some (t', r) ∧ t.a4d = t'.a4d := by
  obtain ⟨u, q, ran, answer, issued₀⟩ := exists_issue_eq wf s
  cases issued₀.symm.trans issued
  obtain ⟨t', r', ran', answer', issued'⟩ := exists_issue_eq wf s'
  obtain ⟨registers, answers⟩ := exec_sameUnit (by rw [own]; exact same) ran ran'
  rw [own] at registers
  rw [answer, answer'] at answers
  exact ⟨t', by rw [issued', Option.some.inj answers], registers⟩

/-- R151: from `s`, `count` samples are decoded from the bytes, which are `out`, and the core is left in `t`. -/
inductive Adp4Decodes : (count : Nat) → (bytes : List Byte) → (s : State) → (out : List Int) → (t : State) → Prop where
  | stop {bytes : List Byte} {s : State} : Adp4Decodes 0 bytes s [] s
  | high {b : Byte} {rest : List Byte} {s t : State} {r : Response} (issued : issue (.a4dHigh b) s = some (t, r)) :
      Adp4Decodes 1 (b :: rest) s [sampleAt r 0] t
  | byte {b : Byte} {rest : List Byte} {s t u : State} {r : Response} {count : Nat} {out : List Int}
      (issued : issue (.a4dByte b) s = some (t, r)) (later : Adp4Decodes count rest t out u) :
      Adp4Decodes (count + 2) (b :: rest) s (sampleAt r 0 :: sampleAt r 16 :: out) u

/-- The loop appends what is decoded to what it was given. -/
theorem Adp4Decodes.loop {count : Nat} {bytes : List Byte} {s t : State} {out : List Int}
    (h : Adp4Decodes count bytes s out t) (before : List Int) :
    adp4DecodeLoop count bytes before s = .done (before ++ out) t := by
  induction h generalizing before with
  | @stop bytes => cases bytes <;> simp [adp4DecodeLoop]
  | high issued => simp [adp4DecodeLoop, issued]
  | byte issued _ ih => simp [adp4DecodeLoop, issued, ih]

/-- A loop that completes has decoded its count. -/
theorem exists_decodes_of_loop {count : Nat} {bytes : List Byte} {s t : State} {before o : List Int}
    (h : adp4DecodeLoop count bytes before s = .done o t) :
    ∃ out, o = before ++ out ∧ Adp4Decodes count bytes s out t := by
  induction bytes generalizing count s before with
  | nil =>
    cases count with
    | zero => cases h; exact ⟨[], by simp, .stop⟩
    | succ => cases h
  | cons b rest ih =>
    match count with
    | 0 => cases h; exact ⟨[], by simp, .stop⟩
    | 1 =>
      obtain ⟨u, r, -, -, issued⟩ := exists_issue_eq (i := .a4dHigh b) rfl s
      simp only [adp4DecodeLoop, issued] at h
      cases h
      exact ⟨_, rfl, .high issued⟩
    | count + 2 =>
      obtain ⟨u, r, -, -, issued⟩ := exists_issue_eq (i := .a4dByte b) rfl s
      simp only [adp4DecodeLoop, issued] at h
      obtain ⟨out, rfl, later⟩ := ih h
      exact ⟨_, by simp, .byte issued later⟩

/-- `ADP4_DECODE` completes exactly where its input suffices, its output fits, and the bytes decode. -/
theorem adp4Decode_eq_done_iff {bytes : List Byte} {count cap : Nat} {s t : State} {out : List Int} :
    adp4Decode bytes count cap s = .done out t
      ↔ (count + 1) / 2 ≤ bytes.length ∧ count ≤ cap ∧ Adp4Decodes count bytes s out t := by
  unfold adp4Decode halfUp
  split
  next short => exact iff_of_false nofun fun ⟨enough, fits, _⟩ => by omega
  next enough =>
    refine ⟨fun h => ?_, fun ⟨_, _, decodes⟩ => decodes.loop []⟩
    obtain ⟨out, rfl, decodes⟩ := exists_decodes_of_loop h
    exact ⟨by omega, by omega, decodes⟩

/-- An even count uses its bytes up whole, so decoding goes on at the next byte (R158). -/
theorem Adp4Decodes.append {n1 n2 : Nat} {b1 b2 : List Byte} {s s1 s2 : State} {o1 o2 : List Int}
    (h1 : Adp4Decodes n1 b1 s o1 s1) (even : n1 % 2 = 0) (h2 : Adp4Decodes n2 b2 s1 o2 s2) :
    Adp4Decodes (n1 + n2) (b1.take (n1 / 2) ++ b2) s (o1 ++ o2) s2 := by
  induction h1 with
  | stop => rw [Nat.zero_add]; exact h2
  | high => cases even
  | byte issued _ ih =>
    rw [Nat.add_right_comm, Nat.add_div_right _ (by decide)]
    exact .byte issued (ih (by omega) h2)

/-- R80 (c): what is decoded, and what A4D holds at the end, are decided by what A4D holds at the start. -/
theorem Adp4Decodes.congr {count : Nat} {bytes : List Byte} {s s' t : State} {out : List Int}
    (h : Adp4Decodes count bytes s out t) (same : s.a4d = s'.a4d) :
    ∃ t', Adp4Decodes count bytes s' out t' ∧ t'.a4d = t.a4d := by
  induction h generalizing s' with
  | stop => exact ⟨s', .stop, same.symm⟩
  | high issued =>
    obtain ⟨t', issued', registers⟩ := issue_same_a4d rfl rfl same issued
    exact ⟨t', .high issued', registers.symm⟩
  | byte issued _ ih =>
    obtain ⟨t', issued', registers⟩ := issue_same_a4d rfl rfl same issued
    obtain ⟨u', later', registers'⟩ := ih registers
    exact ⟨u', .byte issued' later', registers'⟩

/-- Settles O55: the bytes of the first count and the later bytes decode one after the other. -/
theorem adpDecodeInChunks : Obligations.AdpDecodeInChunks := by
  intro b1 b2 n1 n2 cap1 cap2 cap s s1 s2 o1 o2 even h1 h2 fits
  obtain ⟨enough1, -, decodes1⟩ := adp4Decode_eq_done_iff.1 h1
  obtain ⟨enough2, -, decodes2⟩ := adp4Decode_eq_done_iff.1 h2
  have enough : (n1 + n2 + 1) / 2 ≤ (b1.take (n1 / 2) ++ b2).length := by
    rw [List.length_append, List.length_take]
    omega
  exact adp4Decode_eq_done_iff.2 ⟨enough, fits, decodes1.append even decodes2⟩

theorem adp4Decode_congr {bytes : List Byte} {count cap : Nat} {s s' t : State} {out : List Int} (same : s.a4d = s'.a4d)
    (h : adp4Decode bytes count cap s = .done out t) :
    ∃ t', adp4Decode bytes count cap s' = .done out t' ∧ t'.a4d = t.a4d := by
  obtain ⟨enough, fits, decodes⟩ := adp4Decode_eq_done_iff.1 h
  obtain ⟨t', decodes', registers⟩ := decodes.congr same
  exact ⟨t', adp4Decode_eq_done_iff.2 ⟨enough, fits, decodes'⟩, registers⟩

/-- Settles O59: (a) from what a step can do to A4D, (b) and (c) by induction over the commands, and the byte form from O55, the
second call being moved to the state the first one left. -/
theorem decoderStreamProperties : Obligations.DecoderStreamProperties := by
  refine ⟨fun i s t agrees h => (exec_a4dStep h).stepAgrees agrees, isInt16_of_mem_emittedSamples,
    fun is _ _ => emittedSamples_congr is, fun is js _ _ => emittedSamples_append is js, ?bytes⟩
  case bytes =>
    intro b1 b2 n1 n2 cap1 cap2 cap s s1 s' s2 o1 o2 even h1 carried h2 fits
    obtain ⟨t, h2', registers⟩ := adp4Decode_congr carried h2
    exact ⟨t, adpDecodeInChunks b1 b2 n1 n2 cap1 cap2 cap s s1 t o1 o2 even h1 h2' fits, registers⟩

end Sys2Proof.Machine
end

section
/-! PROOFS. The quantizer bit by bit (R85, O24). -/

namespace Sys2Proof.Machine

/-- One pass of R85's loop, with its comparison as the bit that it decides. -/
theorem adp4QuantPass_eq {v : QuantLoop} {bit : Bool} (reaches : bit = decide (v.t ≤ v.mag)) (k : Nat) :
    adp4QuantPass v k = ⟨v.code ||| (if bit then 1#4 <<< k else 0), v.mag - bit.toNat * v.t, v.t / 2⟩ := by
  subst reaches
  by_cases h : v.t ≤ v.mag <;> simp [adp4QuantPass, h, Nat.shiftRight_eq_div_pow]

/-- The bits of a symbol, as R85 sets them. -/
def symbolOfBits (sign b2 b1 b0 : Bool) : Nibble :=
  (if sign then 8#4 else 0#4)
    ||| ((0 : Nibble) ||| (if b2 then 1#4 <<< 2 else 0) ||| (if b1 then 1#4 <<< 1 else 0) ||| (if b0 then 1#4 <<< 0 else 0))

theorem toNat_symbolOfBits (sign b2 b1 b0 : Bool) :
    (symbolOfBits sign b2 b1 b0).toNat = 8 * sign.toNat + 4 * b2.toNat + 2 * b1.toNat + b0.toNat := by
  revert sign b2 b1 b0
  decide

/-- R85: each magnitude bit says whether what the bits above it left reaches its part of the step size. -/
theorem exists_adp4Quant_eq {p x : Int} {i step : Nat} (entry : stepTable[i]? = some step) :
    ∃ b2 b1 b0 : Bool, adp4Quant (p, i) x = symbolOfBits (decide (clamp16 (x - p) < 0)) b2 b1 b0
      ∧ (b2 = true ↔ step ≤ (clamp16 (x - p)).natAbs)
      ∧ (b1 = true ↔ step / 2 ≤ (clamp16 (x - p)).natAbs - b2.toNat * step)
      ∧ (b0 = true ↔ step / 2 / 2 ≤ (clamp16 (x - p)).natAbs - b2.toNat * step - b1.toNat * (step / 2)) := by
  refine ⟨_, _, _, ?_, decide_eq_true_iff, decide_eq_true_iff, decide_eq_true_iff⟩
  simp only [adp4Quant, stepSize_of_entry entry, List.foldl_cons, List.foldl_nil]
  rw [adp4QuantPass_eq (v := ⟨0, _, step⟩) rfl, adp4QuantPass_eq (v := ⟨_, _, step / 2⟩) rfl,
    adp4QuantPass_eq (v := ⟨_, _, step / 2 / 2⟩) rfl]
  simp only [symbolOfBits, decide_eq_true_iff]

/-- Settles O24: the bits of the symbol are the sign and the comparisons of the three passes. -/
theorem quantizerSubtractiveDivision : Obligations.QuantizerSubtractiveDivision := by
  intro p x i step _ _ entry
  obtain ⟨b2, b1, b0, symbol, h2, h1, h0⟩ := exists_adp4Quant_eq (p := p) (x := x) entry
  have saturated : clamp16 (x - p) = max (-32768) (min (x - p) 32767) := clamp_eq_max_min _ _ _ (by decide)
  rw [saturated] at symbol h2 h1 h0
  extract_lets diff n after2 after1
  have value : n = 8 * (decide (diff < 0)).toNat + 4 * b2.toNat + 2 * b1.toNat + b0.toNat :=
    (congrArg BitVec.toNat symbol).trans (toNat_symbolOfBits ..)
  have le2 := b2.toNat_le
  have le1 := b1.toNat_le
  have le0 := b0.toNat_le
  have sign : n / 8 = (decide (diff < 0)).toNat := by omega
  have bit2 : n / 4 % 2 = b2.toNat := by omega
  have bit1 : n / 2 % 2 = b1.toNat := by omega
  have bit0 : n % 2 = b0.toNat := by omega
  simp only [after1, after2, sign, bit2, bit1, bit0, Bool.toNat_eq_one, decide_eq_true_iff]
  exact ⟨trivial, h2, h1, Nat.div_div_eq_div_mul step 2 2 ▸ h0⟩

end Sys2Proof.Machine
end

section
/-! PROOFS. What the response of a packing command reports (R62, R91, R92), and the commands of A4E, one by one (R86 to R92; O31 to
O34). -/

namespace Sys2Proof.Machine

/-- R58: the earlier symbol is the high nibble. -/
theorem toNat_append_nibbles (high low : Nibble) : (high ++ low : Byte).toNat = 16 * high.toNat + low.toNat := by
  rw [BitVec.toNat_append, ← Nat.shiftLeft_add_eq_or_of_lt low.isLt, Nat.shiftLeft_eq, Nat.mul_comm]

/-- Nothing is set on the bus a command starts from. -/
theorem BusHolds.empty : BusHolds yZero 0 0 := ⟨rfl, by decide⟩

/-- R91, R92: the byte, and the valid bit above it. -/
theorem busHolds_byteEmitted (b : Byte) : BusHolds (byteEmitted b) (b.toNat + 2 ^ 8) 9 :=
  (BusHolds.first b).setField (1 : Bit)

theorem a4ePushReport_toNat {y : Word} {a hi : Nat} (h : BusHolds y a hi) (below : hi ≤ 12) (n : Nibble) (p : Int) :
    (a4ePushReport y n p).toNat = a + (2 ^ 12 * n.toNat + 2 ^ 16 * (bitsOf 16 p).toNat) :=
  ((h.setField n below).setField (bitsOf 16 p)).value.trans (Nat.add_assoc ..)

/-- What A4E's predictor registers hold after an `ADP4_UPDATE` (R14, R73). -/
theorem pair_a4eWritePair {r : A4eRegs} {st : Int × Nat} (pred : isInt16 st.1) (idx : st.2 ≤ 88) :
    (a4eWritePair r st).pair = st :=
  pair_a4dWrite pred idx

theorem pair_a4eWritePair_adp4Update (r : A4eRegs) (st : Int × Nat) (n : Nibble) :
    (a4eWritePair r (adp4Update st n)).pair = adp4Update st n :=
  pair_a4dWrite_adp4Update st n

/-- R91: the first sample of a pair stays pending. -/
theorem exec_a4ePush_of_empty {s : State} (empty : s.a4e.phase = 0) (x : Int) :
    exec (.a4ePush x) s = complete (a4ePushReport noByteEmitted (a4eSymbol x s.a4e) (a4eAdvance x s.a4e).1)
      (s.withA4e (a4eWritePacker (a4eWritePair s.a4e (a4eAdvance x s.a4e)) 1 (a4eSymbol x s.a4e))) :=
  if_pos empty

/-- R91: the second sample of a pair completes the byte. -/
theorem exec_a4ePush_of_pending {s : State} (pending : s.a4e.phase = 1) (x : Int) :
    exec (.a4ePush x) s
      = complete (a4ePushReport (byteEmitted (s.a4e.pend ++ a4eSymbol x s.a4e)) (a4eSymbol x s.a4e) (a4eAdvance x s.a4e).1)
        (s.withA4e (a4eWritePacker (a4eWritePair s.a4e (a4eAdvance x s.a4e)) 0 0)) :=
  if_neg (by rw [pending]; decide)

/-- R92: a pending symbol is flushed as the high nibble of a byte. -/
theorem exec_a4eFlush_of_pending {s : State} (pending : s.a4e.phase = 1) :
    exec .a4eFlush s = complete (byteEmitted (s.a4e.pend ++ 0#4)) (s.withA4e (a4eWritePacker s.a4e 0 0)) :=
  if_pos pending

/-- R92: with nothing pending there is nothing to flush. -/
theorem exec_a4eFlush_of_empty {s : State} (empty : s.a4e.phase = 0) : exec .a4eFlush s = complete noByteEmitted s :=
  if_neg (by rw [empty]; decide)

/-- Settles O31: an index in range is written with the packer, one above it is rejected. -/
theorem encoderLoad : Obligations.EncoderLoad := by
  refine ⟨fun a b c => by rw [decode_a4eLoad, sextField_16, zextField_8, bitField_0_4, bitField_one_eq_ofBool],
    fun p i q h s pred => ⟨fun idx => ?_, fun idx => exec_of_rejects (i := .a4eLoad p i q h) idx⟩⟩
  have loaded := pair_a4eWritePair (r := s.a4e) (st := (p, i)) pred idx
  have run : exec (.a4eLoad p i q h) s
      = complete yZero (s.withA4e (a4eWritePacker (a4eWritePair s.a4e (p, i)) h (if h = 1 then q else 0))) :=
    if_neg (Nat.not_lt.2 idx)
  have cleared : h = 0 → (if h = 1 then q else 0) = 0 := by rintro rfl; rfl
  exact ⟨_, run, congrArg Prod.fst loaded, congrArg Prod.snd loaded, rfl, fun one => if_pos one, cleared, rfl, exec_onlyUnit run⟩

/-- Settles O32: what A4E holds is what was written to it, and the answer's two fields are set in ascending order. -/
theorem encodeOneSymbol : Obligations.EncodeOneSymbol := by
  refine ⟨fun a b c => by rw [decode_a4eSym, sextField_16], fun x s => ?_⟩
  exact ⟨_, _, rfl, pair_a4eWritePair_adp4Update _ _ _, rfl, rfl, rfl, ((BusHolds.first _).setField _).value,
    exec_onlyUnit (i := .a4eSym x) rfl⟩

/-- Settles O33, phase by phase: in both the pair is updated alike, and the report stands above the emitted byte. -/
theorem pushPacksTwoSymbols : Obligations.PushPacksTwoSymbols := by
  refine ⟨fun a b c => by rw [decode_a4ePush, sextField_16], fun x s => ?_⟩
  rcases channel_cases s.a4e.phase with empty | pending
  · have run := exec_a4ePush_of_empty empty x
    have report := a4ePushReport_toNat .empty (by decide) (a4eSymbol x s.a4e) (a4eAdvance x s.a4e).1
    rw [Nat.zero_add] at report
    exact ⟨_, _, run, pair_a4eWritePair_adp4Update s.a4e _ _, fun _ => ⟨rfl, rfl, report⟩,
      fun pending => absurd (empty.symm.trans pending) (by decide), rfl, exec_onlyUnit run⟩
  · have run := exec_a4ePush_of_pending pending x
    have report := a4ePushReport_toNat (busHolds_byteEmitted (s.a4e.pend ++ a4eSymbol x s.a4e)) (by decide)
      (a4eSymbol x s.a4e) (a4eAdvance x s.a4e).1
    rw [toNat_append_nibbles] at report
    exact ⟨_, _, run, pair_a4eWritePair_adp4Update s.a4e _ _, fun empty => absurd (pending.symm.trans empty) (by decide),
      fun _ => ⟨rfl, rfl, report⟩, rfl, exec_onlyUnit run⟩

/-- Settles O34, phase by phase. -/
theorem flushEmitsPendingNibble : Obligations.FlushEmitsPendingNibble := by
  refine ⟨decode_a4eFlush, fun s => ⟨fun pending => ?_, exec_a4eFlush_of_empty⟩⟩
  have run := exec_a4eFlush_of_pending pending
  have report := (busHolds_byteEmitted (s.a4e.pend ++ 0#4)).value
  rw [toNat_append_nibbles] at report
  exact ⟨_, _, run, rfl, rfl, rfl, rfl, rfl, report, exec_onlyUnit run⟩

end Sys2Proof.Machine
end

section
/-! PROOFS. The packer of A4E in nibbles (R91, R92): a push adds its symbol to what is pending, and what leaves as a byte is no
longer pending. -/

namespace Sys2Proof.Machine

/-- The byte that a response of a packing command carries, where it carries one (R152). -/
def emittedBytes (r : Response) : List Byte := if byteValid r then [byteOf r] else []

/-- The symbol that waits in the packer for the second one of its byte, where one waits (R26). -/
def pendingNibbles (r : A4eRegs) : List Nibble := if r.phase = 1 then [r.pend] else []

/-- The report of a push leaves the byte and its valid bit as they are. -/
theorem bitField_a4ePushReport (y : Word) (n : Nibble) (p : Int) {lo w : Nat} (below : lo + w ≤ 12) :
    bitField (a4ePushReport y n p) lo w = bitField y lo w := by
  rw [a4ePushReport, bitField_setField_apart _ _ _ _ (by omega) (.inl (by omega)),
    bitField_setField_apart _ _ _ _ (by omega) (.inl below)]

@[simp] theorem emittedBytes_a4ePushReport (y : Word) (n : Nibble) (p : Int) (e : BitVec 2) :
    emittedBytes ⟨a4ePushReport y n p, e⟩ = emittedBytes ⟨y, e⟩ := by
  rw [emittedBytes, emittedBytes, byteValid, byteValid, byteOf, byteOf, bitField_a4ePushReport y n p (by decide),
    bitField_a4ePushReport y n p (by decide)]

@[simp] theorem emittedBytes_byteEmitted (b : Byte) (e : BitVec 2) : emittedBytes ⟨byteEmitted b, e⟩ = [b] := by
  have valid : bitField (byteEmitted b) 8 1 = 1 := bitField_setField_same _ _ _ (by decide)
  have byte : bitField (byteEmitted b) 0 8 = b := by
    rw [byteEmitted, bitField_setField_apart _ _ _ _ (by decide) (by decide), bitField_setField_same _ _ _ (by decide)]
  rw [emittedBytes, byteValid, byteOf, valid, byte]
  rfl

@[simp] theorem emittedBytes_noByteEmitted (e : BitVec 2) : emittedBytes ⟨noByteEmitted, e⟩ = [] :=
  if_neg (show ¬ (bitField noByteEmitted 8 1 == 1#1) = true by decide)

theorem pendingNibbles_of_empty {r : A4eRegs} (empty : r.phase = 0) : pendingNibbles r = [] :=
  if_neg (by rw [empty]; decide)

theorem pendingNibbles_of_pending {r : A4eRegs} (pending : r.phase = 1) : pendingNibbles r = [r.pend] := if_pos pending

theorem length_pendingNibbles (r : A4eRegs) : (pendingNibbles r).length = r.phase.toNat := by
  rcases channel_cases r.phase with empty | pending
  · rw [pendingNibbles_of_empty empty, empty]; rfl
  · rw [pendingNibbles_of_pending pending, pending]; rfl

@[simp] theorem highNibble_append (high low : Nibble) : highNibble (high ++ low) = high := by
  rw [highNibble_eq_ofNat, toNat_append_nibbles]
  apply BitVec.eq_of_toNat_eq
  rw [BitVec.toNat_ofNat]
  omega

@[simp] theorem lowNibble_append (high low : Nibble) : lowNibble (high ++ low) = low := by
  rw [lowNibble_eq_ofNat, toNat_append_nibbles]
  apply BitVec.eq_of_toNat_eq
  rw [BitVec.toNat_ofNat]
  omega

@[simp] theorem nibblesOf_nil : nibblesOf [] = [] := rfl

@[simp] theorem nibblesOf_cons (b : Byte) (bytes : List Byte) :
    nibblesOf (b :: bytes) = highNibble b :: lowNibble b :: nibblesOf bytes := rfl

@[simp] theorem nibblesOf_append (b1 b2 : List Byte) : nibblesOf (b1 ++ b2) = nibblesOf b1 ++ nibblesOf b2 :=
  List.flatMap_append

@[simp] theorem length_nibblesOf (bytes : List Byte) : (nibblesOf bytes).length = 2 * bytes.length := by
  induction bytes with
  | nil => rfl
  | cons b bytes ih => rw [nibblesOf_cons, List.length_cons, List.length_cons, ih, List.length_cons]; omega

/-- R91: what was pending and the new symbol are what leaves in a byte and what is now pending. -/
theorem exec_a4ePush_packs (x : Int) (s : State) :
    ∃ t r, exec (.a4ePush x) s = .next t ∧ t.rsp = some r
      ∧ pendingNibbles s.a4e ++ [a4eSymbol x s.a4e] = nibblesOf (emittedBytes r) ++ pendingNibbles t.a4e := by
  rcases channel_cases s.a4e.phase with empty | pending
  · refine ⟨_, _, exec_a4ePush_of_empty empty x, rfl, ?_⟩
    rw [pendingNibbles_of_empty empty, emittedBytes_a4ePushReport, emittedBytes_noByteEmitted]
    rfl
  · refine ⟨_, _, exec_a4ePush_of_pending pending x, rfl, ?_⟩
    rw [pendingNibbles_of_pending pending, emittedBytes_a4ePushReport, emittedBytes_byteEmitted, nibblesOf_cons,
      highNibble_append, lowNibble_append]
    rfl

/-- R92: what was pending leaves in a byte, above a nibble 0. -/
theorem exec_a4eFlush_packs (s : State) :
    ∃ t r, exec .a4eFlush s = .next t ∧ t.rsp = some r
      ∧ nibblesOf (emittedBytes r) = pendingNibbles s.a4e ++ List.replicate s.a4e.phase.toNat 0
      ∧ t.a4e.predictor = s.a4e.predictor := by
  rcases channel_cases s.a4e.phase with empty | pending
  · refine ⟨_, _, exec_a4eFlush_of_empty empty, rfl, ?_, rfl⟩
    rw [pendingNibbles_of_empty empty, emittedBytes_noByteEmitted, empty]
    rfl
  · refine ⟨_, _, exec_a4eFlush_of_pending pending, rfl, ?_, rfl⟩
    rw [pendingNibbles_of_pending pending, emittedBytes_byteEmitted, nibblesOf_cons, highNibble_append, lowNibble_append,
      pending]
    rfl

end Sys2Proof.Machine
end

section
/-! PROOFS. `ADP4_ENCODE` (R152): its loop from one command to the next, how many bytes it emits, and its cut anywhere (R157,
O54). -/

namespace Sys2Proof.Machine

/-- Issuing an instruction runs what its command decodes to. -/
theorem issue_of_exec {i j : Instr} {s t : State} {r : Response} (decoded : decode (encode i) = .ok j)
    (ran : exec j s = .next t) (answer : t.rsp = some r) : issue i s = some (t, r) := by
  have stepped : step (s.present (encode i)) = .next t :=
    (step_of_decode (s := s.present (encode i)) rfl decoded).trans ran
  rw [issue, stepped, answered, answer]

/-- A push issued with any integer pushes the sample that its operand field holds. -/
theorem exists_issue_a4ePush (x : Int) (s : State) :
    ∃ t r n, issue (.a4ePush x) s = some (t, r)
      ∧ pendingNibbles s.a4e ++ [n] = nibblesOf (emittedBytes r) ++ pendingNibbles t.a4e := by
  obtain ⟨t, r, ran, answer, packs⟩ := exec_a4ePush_packs (sextField 16 (busInt x)) s
  exact ⟨t, r, _, issue_of_exec (decode_a4ePush _ _ _) ran answer, packs⟩

theorem exists_issue_a4eFlush (s : State) :
    ∃ t r, issue .a4eFlush s = some (t, r)
      ∧ nibblesOf (emittedBytes r) = pendingNibbles s.a4e ++ List.replicate s.a4e.phase.toNat 0
      ∧ t.a4e.predictor = s.a4e.predictor := by
  obtain ⟨t, r, ran, answer, packs⟩ := exec_a4eFlush_packs s
  exact ⟨t, r, issue_of_exec rfl ran answer, packs⟩

theorem append_emittedBytes (out : List Byte) (r : Response) :
    (if byteValid r then out ++ [byteOf r] else out) = out ++ emittedBytes r := by
  unfold emittedBytes
  split
  · rfl
  · exact out.append_nil.symm

theorem adp4EncodeLoop_cons {x : Int} {s t : State} {r : Response} (issued : issue (.a4ePush x) s = some (t, r)) (eos : Bool)
    (rest : List Int) (out : List Byte) :
    adp4EncodeLoop eos (x :: rest) out s = adp4EncodeLoop eos rest (out ++ emittedBytes r) t := by
  simp only [adp4EncodeLoop, issued, append_emittedBytes]

theorem adp4EncodeEnd_true {s t : State} {r : Response} (issued : issue .a4eFlush s = some (t, r)) (out : List Byte) :
    adp4EncodeEnd true out s = .done (out ++ emittedBytes r) t := by
  simp only [adp4EncodeEnd, if_true, issued, append_emittedBytes]

/-- The loop without a flush ends where the loop over more samples goes on. -/
theorem adp4EncodeLoop_append {x1 : List Int} {out o : List Byte} {s t : State}
    (h : adp4EncodeLoop false x1 out s = .done o t) (eos : Bool) (x2 : List Int) :
    adp4EncodeLoop eos (x1 ++ x2) out s = adp4EncodeLoop eos x2 o t := by
  induction x1 generalizing out s with
  | nil => cases h; rfl
  | cons x x1 ih =>
    obtain ⟨u, r, _, issued, -⟩ := exists_issue_a4ePush x s
    rw [adp4EncodeLoop_cons issued] at h
    rw [List.cons_append, adp4EncodeLoop_cons issued, ih h]

/-- What was emitted before stays in front. -/
theorem adp4EncodeLoop_append_out {eos : Bool} {xs : List Int} {out o : List Byte} {s t : State}
    (h : adp4EncodeLoop eos xs out s = .done o t) (before : List Byte) :
    adp4EncodeLoop eos xs (before ++ out) s = .done (before ++ o) t := by
  induction xs generalizing out s with
  | nil =>
    cases eos with
    | false => cases h; rfl
    | true =>
      obtain ⟨u, r, issued, -⟩ := exists_issue_a4eFlush s
      rw [adp4EncodeLoop, adp4EncodeEnd_true issued] at h ⊢
      cases h
      rw [List.append_assoc]
  | cons x xs ih =>
    obtain ⟨u, r, _, issued, -⟩ := exists_issue_a4ePush x s
    rw [adp4EncodeLoop_cons issued] at h ⊢
    rw [List.append_assoc, ih h]

/-- R152: two symbols per byte, the last byte of a stream half full where their number is odd. -/
theorem adp4EncodeLength_eq (phase : Bit) (len : Nat) (eos : Bool) :
    adp4EncodeLength phase len eos = if eos then (phase.toNat + len + 1) / 2 else (phase.toNat + len) / 2 := by
  cases eos with
  | false => rfl
  | true =>
    simp only [adp4EncodeLength, Bool.true_and, beq_iff_eq, if_true]
    split <;> omega

/-- R152: `n_out` is the number of bytes emitted. -/
theorem length_of_adp4EncodeLoop {eos : Bool} {xs : List Int} {out o : List Byte} {s t : State}
    (h : adp4EncodeLoop eos xs out s = .done o t) :
    o.length = out.length + adp4EncodeLength s.a4e.phase xs.length eos := by
  have onePhase := s.a4e.phase.isLt
  rw [adp4EncodeLength_eq]
  induction xs generalizing out s with
  | nil =>
    rw [List.length_nil, Nat.add_zero]
    cases eos with
    | false =>
      cases h
      rw [if_neg (by decide)]
      omega
    | true =>
      obtain ⟨u, r, issued, packs, -⟩ := exists_issue_a4eFlush s
      have count := congrArg List.length packs
      simp only [length_nibblesOf, List.length_append, length_pendingNibbles, List.length_replicate] at count
      rw [adp4EncodeLoop, adp4EncodeEnd_true issued] at h
      cases h
      rw [if_pos rfl, List.length_append]
      omega
  | cons x xs ih =>
    obtain ⟨u, r, n, issued, packs⟩ := exists_issue_a4ePush x s
    have count := congrArg List.length packs
    simp only [length_nibblesOf, List.length_append, length_pendingNibbles, List.length_singleton] at count
    rw [adp4EncodeLoop_cons issued] at h
    rw [ih h u.a4e.phase.isLt, List.length_append, List.length_cons]
    split <;> omega

/-- `ADP4_ENCODE` completes exactly where its output fits and its loop completes. -/
theorem adp4Encode_eq_done_iff {xs : List Int} {eos : Bool} {cap : Nat} {s t : State} {o : List Byte} :
    adp4Encode xs eos cap s = .done o t ↔ o.length ≤ cap ∧ adp4EncodeLoop eos xs [] s = .done o t := by
  unfold adp4Encode
  split
  next short =>
    refine iff_of_false nofun fun ⟨fits, done⟩ => ?_
    rw [length_of_adp4EncodeLoop done, List.length_nil] at fits
    omega
  next enough =>
    refine ⟨fun done => ⟨?_, done⟩, And.right⟩
    rw [length_of_adp4EncodeLoop done, List.length_nil]
    omega

/-- Settles O54: the loop of the whole is that of the second part, begun where that of the first part ended. -/
theorem adpEncodeInChunks : Obligations.AdpEncodeInChunks := by
  intro x1 x2 eos cap1 cap2 cap s s1 s2 o1 o2 h1 h2 fits
  obtain ⟨-, done1⟩ := adp4Encode_eq_done_iff.1 h1
  obtain ⟨-, done2⟩ := adp4Encode_eq_done_iff.1 h2
  have whole : adp4EncodeLoop eos (x1 ++ x2) [] s = .done (o1 ++ o2) s2 := by
    rw [adp4EncodeLoop_append done1]
    simpa using adp4EncodeLoop_append_out done2 o1
  exact adp4Encode_eq_done_iff.2 ⟨by rwa [List.length_append], whole⟩

end Sys2Proof.Machine
end

section
/-! PROOFS. `ADP4_DECODE` symbol by symbol (R151): it decodes what `A4D.SYM` decodes on the nibbles of the bytes, and reads no
other nibble. -/

namespace Sys2Proof.Machine

/-- An instruction that was issued has run. -/
theorem exec_of_issue {i : Instr} (wf : i.wellFormed = true) {s t : State} {r : Response} (issued : issue i s = some (t, r)) :
    exec i s = .next t ∧ t.rsp = some r := by
  obtain ⟨u, q, ran, answer, issued'⟩ := exists_issue_eq wf s
  cases issued'.symm.trans issued
  exact ⟨ran, answer⟩

/-- An `int16` fits a sample operand (R13). -/
theorem fitsSigned_16_of_isInt16 {z : Int} (h : isInt16 z) : fitsSigned 16 z = true :=
  (fitsSigned_iff 16 z).2 ⟨h.1, Int.lt_add_one_of_le h.2⟩

/-- R79: `A4D.HIGH` decodes one symbol. -/
theorem exec_a4dHigh_sample {b : Byte} {s t : State} {r : Response} (h : exec (.a4dHigh b) s = .next t)
    (answer : t.rsp = some r) :
    t.a4d = a4dWrite (adp4Update s.a4d.pair (highNibble b)) ∧ sampleAt r 0 = t.a4d.pred.toInt := by
  obtain rfl := Host.Outcome.next.inj h
  obtain rfl := Option.some.inj answer
  refine ⟨rfl, ?_⟩
  have fits := fitsSigned_16_of_isInt16 (adp4Update_mem s.a4d.pair (highNibble b)).1
  exact (sextField_busInt_16 fits).trans (pred_a4dWrite_adp4Update _ _).symm

/-- R78: `A4D.BYTE` decodes two symbols, one after the other. -/
theorem exec_a4dByte_samples {b : Byte} {s t : State} {r : Response} (h : exec (.a4dByte b) s = .next t)
    (answer : t.rsp = some r) :
    ∃ first : A4dRegs, first = a4dWrite (adp4Update s.a4d.pair (highNibble b))
      ∧ t.a4d = a4dWrite (adp4Update first.pair (lowNibble b))
      ∧ sampleAt r 0 = first.pred.toInt ∧ sampleAt r 16 = t.a4d.pred.toInt := by
  obtain rfl := Host.Outcome.next.inj h
  obtain rfl := Option.some.inj answer
  refine ⟨_, rfl, by rw [pair_a4dWrite_adp4Update]; rfl, ?_, ?_⟩
  · rw [sampleAt, bitField_setField_apart _ _ _ _ (by decide) (by decide), bitField_setField_same _ _ _ (by decide)]
    rfl
  · rw [sampleAt, bitField_setField_same _ _ _ (by decide)]
    rfl

/-- The state a run ends in, where the run's first state is known. -/
theorem getD_getLast?_cons {α : Type} (a d : α) (l : List α) : (a :: l).getLast?.getD d = l.getLast?.getD a := by
  rw [List.getLast?_cons, Option.getD_some]

/-- R151: what is decoded is what `A4D.SYM` decodes on the first `count` nibbles, from any state with the same A4D. -/
theorem Adp4Decodes.eq_execTrace_a4dSym {count : Nat} {bytes : List Byte} {s t : State} {out : List Int}
    (h : Adp4Decodes count bytes s out t) {s' : State} (same : s'.a4d = s.a4d) :
    out = (execTrace (((nibblesOf bytes).take count).map .a4dSym) s').map (fun u => u.a4d.pred.toInt)
      ∧ t.a4d = ((execTrace (((nibblesOf bytes).take count).map .a4dSym) s').getLast?.getD s').a4d := by
  induction h generalizing s' with
  | stop => exact ⟨rfl, same.symm⟩
  | @high b rest s t r issued =>
    obtain ⟨ran, answer⟩ := exec_of_issue rfl issued
    obtain ⟨written, sample⟩ := exec_a4dHigh_sample ran answer
    obtain ⟨u, _, run, written', -⟩ := exec_a4dSym (highNibble b) s'
    have same' : u.a4d = t.a4d := by rw [written', written, same]
    rw [nibblesOf_cons, List.take_succ_cons, List.take_zero, List.map_singleton, execTrace_cons _ run, execTrace_nil,
      List.map_singleton, sample, same']
    exact ⟨rfl, same'.symm⟩
  | @byte b rest s t _ r count out issued _ ih =>
    obtain ⟨ran, answer⟩ := exec_of_issue rfl issued
    obtain ⟨first, writtenFirst, written, sampleFirst, sample⟩ := exec_a4dByte_samples ran answer
    obtain ⟨u, _, runFirst, writtenU, -⟩ := exec_a4dSym (highNibble b) s'
    obtain ⟨v, _, run, writtenV, -⟩ := exec_a4dSym (lowNibble b) u
    have sameU : u.a4d = first := by rw [writtenU, writtenFirst, same]
    have sameV : v.a4d = t.a4d := by rw [writtenV, written, sameU]
    obtain ⟨samples, last⟩ := ih sameV
    rw [nibblesOf_cons, List.take_succ_cons, List.take_succ_cons, List.map_cons, List.map_cons, execTrace_cons _ runFirst,
      execTrace_cons _ run, getD_getLast?_cons, getD_getLast?_cons, List.map_cons, List.map_cons, ← samples, sampleFirst, sample,
      sameU, sameV]
    exact ⟨rfl, last⟩

/-- Bytes enough for a count decode. -/
theorem exists_adp4Decodes {count : Nat} {bytes : List Byte} (enough : (count + 1) / 2 ≤ bytes.length) (s : State) :
    ∃ out t, Adp4Decodes count bytes s out t := by
  induction bytes generalizing count s with
  | nil =>
    rw [List.length_nil] at enough
    obtain rfl : count = 0 := by omega
    exact ⟨_, _, .stop⟩
  | cons b rest ih =>
    rw [List.length_cons] at enough
    match count with
    | 0 => exact ⟨_, _, .stop⟩
    | 1 =>
      obtain ⟨t, r, -, -, issued⟩ := exists_issue_eq (i := .a4dHigh b) rfl s
      exact ⟨_, _, .high issued⟩
    | count + 2 =>
      obtain ⟨t, r, -, -, issued⟩ := exists_issue_eq (i := .a4dByte b) rfl s
      obtain ⟨out, u, later⟩ := ih (count := count) (by omega) t
      exact ⟨_, _, .byte issued later⟩

/-- R31: decoding leaves A4E alone. -/
theorem Adp4Decodes.a4e_eq {count : Nat} {bytes : List Byte} {s t : State} {out : List Int}
    (h : Adp4Decodes count bytes s out t) : t.a4e = s.a4e := by
  have kept {i : Instr} {s t : State} {r : Response} (wf : i.wellFormed = true) (own : unitOf i = .a4d)
      (issued : issue i s = some (t, r)) : t.a4e = s.a4e :=
    ((exec_onlyUnit (exec_of_issue wf issued).1).2 .a4e (by rw [own]; decide)).symm
  induction h with
  | stop => rfl
  | high issued => exact kept rfl rfl issued
  | byte issued _ ih => exact ih.trans (kept rfl rfl issued)

end Sys2Proof.Machine
end

section
/-! PROOFS. The fresh decode of the fresh encode (R93, R160, O57). -/

namespace Sys2Proof.Machine

/-- Every command answers, so a run passes through as many states as it has commands. -/
theorem length_execTrace (is : List Instr) (s : State) : (execTrace is s).length = is.length := by
  induction is generalizing s with
  | nil => rfl
  | cons i is ih =>
    obtain ⟨t, _, ran, -⟩ := exists_exec_eq_next i s
    rw [execTrace_cons _ ran, List.length_cons, ih, List.length_cons]

/-- O49 for pushes: A4D, decoding the reported symbols, passes through the predictor states of A4E. -/
theorem map_a4d_execTrace_eq_predictor (xs : List Int) {s s' : State} (same : s'.a4d = s.a4e.predictor) :
    (execTrace (((execTrace (xs.map .a4ePush) s).map (symbolOf true)).map .a4dSym) s').map State.a4d
      = (execTrace (xs.map .a4ePush) s).map (fun t => t.a4e.predictor) := by
  have pushes : (xs.map (Prod.mk true)).map (fun x => codeSample x.1 x.2) = xs.map .a4ePush := List.map_map
  have length : (execTrace (xs.map .a4ePush) s).length ≤ xs.length := by rw [length_execTrace, List.length_map]
  have symbols : ((xs.map (Prod.mk true)).zip (execTrace (xs.map .a4ePush) s)).map (fun xe => symbolOf xe.1.1 xe.2)
      = (execTrace (xs.map .a4ePush) s).map (symbolOf true) := by
    conv_rhs => rw [← List.map_snd_zip length]
    rw [List.zip_map_left, List.map_map, List.map_map]
    rfl
  obtain ⟨-, -, -, states⟩ := encoderAndDecoderTracesAgree (xs.map (Prod.mk true)) s s' (congrArg A4dRegs.pred same)
    (congrArg A4dRegs.idx same)
  rw [pushes, symbols] at states
  have registers := congrArg (List.map fun q => A4dRegs.mk q.1 q.2) states
  simp only [List.map_map] at registers ⊢
  exact registers

/-- Pushing samples keeps every symbol: the bytes and the packer hold what was pending and the reported symbols. -/
theorem exists_adp4EncodeLoop_packs {xs : List Int} (samples : ∀ x ∈ xs, isInt16 x) (out : List Byte) (s : State) :
    ∃ bytes t, adp4EncodeLoop false xs out s = .done (out ++ bytes) t
      ∧ pendingNibbles s.a4e ++ (execTrace (xs.map .a4ePush) s).map (symbolOf true)
          = nibblesOf bytes ++ pendingNibbles t.a4e
      ∧ t.a4e = ((execTrace (xs.map .a4ePush) s).getLast?.getD s).a4e := by
  induction xs generalizing out s with
  | nil => exact ⟨[], s, by rw [List.append_nil]; rfl, List.append_nil _, rfl⟩
  | cons x xs ih =>
    obtain ⟨sample, later⟩ := List.forall_mem_cons.1 samples
    obtain ⟨t, r, ran, answer, packs⟩ := exec_a4ePush_packs x s
    obtain ⟨t', ran', symbol, -⟩ := exec_codeSample true x s
    obtain rfl := Host.Outcome.next.inj (ran.symm.trans ran')
    have issued := issue_of_exec (decode_encode (i := .a4ePush x) (fitsSigned_16_of_isInt16 sample)) ran answer
    obtain ⟨bytes, u, done, packs', last⟩ := ih later (out ++ emittedBytes r) t
    refine ⟨emittedBytes r ++ bytes, u, ?_, ?_, ?_⟩
    · rw [adp4EncodeLoop_cons issued, done, List.append_assoc]
    · rw [List.map_cons, execTrace_cons _ ran, List.map_cons, symbol, List.append_cons, packs, nibblesOf_append,
        List.append_assoc, packs', List.append_assoc]
    · rw [List.map_cons, execTrace_cons _ ran, getD_getLast?_cons, last]

/-- Samples encoded from an empty packer give their symbols in stream order, and the flush leaves the predictor where the last push
left it. -/
theorem exists_adp4EncodeLoop_symbols {xs : List Int} (samples : ∀ x ∈ xs, isInt16 x) {s : State} (empty : s.a4e.phase = 0) :
    ∃ bytes t, adp4EncodeLoop true xs [] s = .done bytes t
      ∧ (nibblesOf bytes).take xs.length = (execTrace (xs.map .a4ePush) s).map (symbolOf true)
      ∧ t.a4e.predictor = ((execTrace (xs.map .a4ePush) s).getLast?.getD s).a4e.predictor := by
  obtain ⟨bytes, t, pushed, packs, last⟩ := exists_adp4EncodeLoop_packs samples [] s
  obtain ⟨u, r, issued, flushes, kept⟩ := exists_issue_a4eFlush t
  rw [pendingNibbles_of_empty empty, List.nil_append] at packs
  have whole : adp4EncodeLoop true xs [] s = .done (bytes ++ emittedBytes r) u := by
    have flushed := adp4EncodeLoop_append pushed true []
    rwa [List.append_nil, adp4EncodeLoop, adp4EncodeEnd_true issued] at flushed
  have length : ((execTrace (xs.map .a4ePush) s).map (symbolOf true)).length = xs.length := by
    rw [List.length_map, length_execTrace, List.length_map]
  refine ⟨_, _, whole, ?_, by rw [kept, last]⟩
  rw [nibblesOf_append, flushes, ← List.append_assoc, ← packs, ← length, List.take_left]

/-- Bytes whose first nibbles are the symbols that A4E reported decode to the values its predictor took. -/
theorem exists_adp4Decodes_of_symbols {xs : List Int} {bytes : List Byte} {s s' : State} (same : s'.a4d = s.a4e.predictor)
    (enough : (xs.length + 1) / 2 ≤ bytes.length)
    (symbols : (nibblesOf bytes).take xs.length = (execTrace (xs.map .a4ePush) s).map (symbolOf true)) :
    ∃ u, Adp4Decodes xs.length bytes s' ((execTrace (xs.map .a4ePush) s).map fun v => v.a4e.pred.toInt) u
      ∧ u.a4d = ((execTrace (xs.map .a4ePush) s).getLast?.getD s).a4e.predictor := by
  obtain ⟨out, u, decodes⟩ := exists_adp4Decodes enough s'
  obtain ⟨emitted, last⟩ := decodes.eq_execTrace_a4dSym rfl
  have states := map_a4d_execTrace_eq_predictor xs same
  rw [symbols] at emitted last
  have trace : out = (execTrace (xs.map .a4ePush) s).map fun v => v.a4e.pred.toInt := by
    have values := congrArg (List.map fun q => q.pred.toInt) states
    simp only [List.map_map] at values emitted
    exact emitted.trans values
  refine ⟨u, trace ▸ decodes, ?_⟩
  rw [last, ← Option.getD_map State.a4d, ← List.getLast?_map, states, same, List.getLast?_map]
  exact Option.getD_map ..

/-- The bytes with the low nibble of the last one replaced. -/
def replaceLastLow (low : Nibble) (bytes : List Byte) : List Byte :=
  bytes.dropLast ++ bytes.getLast?.toList.map (fun b => highNibble b ++ low)

theorem replaceLastLow_concat (low : Nibble) (bytes : List Byte) (b : Byte) :
    replaceLastLow low (bytes ++ [b]) = bytes ++ [highNibble b ++ low] := by
  simp [replaceLastLow]

theorem length_replaceLastLow (low : Nibble) (bytes : List Byte) : (replaceLastLow low bytes).length = bytes.length := by
  rcases bytes.eq_nil_or_concat' with rfl | ⟨bytes, b, rfl⟩
  · rfl
  · rw [replaceLastLow_concat, List.length_append, List.length_append]; rfl

/-- Every nibble but the last is as it was. -/
theorem take_nibblesOf_replaceLastLow {n : Nat} {bytes : List Byte} (notLast : n < 2 * bytes.length) (low : Nibble) :
    (nibblesOf (replaceLastLow low bytes)).take n = (nibblesOf bytes).take n := by
  rcases bytes.eq_nil_or_concat' with rfl | ⟨bytes, b, rfl⟩
  · rfl
  have within : n ≤ (nibblesOf bytes ++ [highNibble b]).length := by
    simp only [List.length_append, List.length_singleton, length_nibblesOf] at notLast ⊢
    omega
  have cut (rest : List Nibble) :
      (nibblesOf bytes ++ highNibble b :: rest).take n = (nibblesOf bytes ++ [highNibble b]).take n := by
    rw [List.append_cons, List.take_append_of_le_length within]
  rw [replaceLastLow_concat, nibblesOf_append, nibblesOf_append, nibblesOf_cons, nibblesOf_cons, highNibble_append]
  exact (cut _).trans (cut _).symm

/-- A fresh form is the continue form after an `INIT` that completes (R155). -/
theorem freshStream_of_issue {α : Type} {init : Instr} {s t : State} {r : Response} (issued : issue init s = some (t, r))
    (ok : r.err = errOk) (proc : State → StreamResult α) : freshStream init proc s = proc t := by
  simp only [freshStream, issued, if_pos ok]

/-- Settles O57: the encoder packs its symbols in stream order, the decoder starts in the encoder's fresh predictor state and
follows it symbol by symbol (O49), and a last low nibble that carries no symbol is not read. -/
theorem adpRoundTrip : Obligations.AdpRoundTrip := by
  intro xs s cap cap' samples fits fits'
  obtain ⟨s0, init, answer, fresh⟩ : ∃ s0, exec .a4eInit s = .next s0 ∧ s0.rsp = some ⟨0, 0⟩ ∧ s0.a4e = ⟨0, 0, 0, 0⟩ :=
    ⟨_, rfl, rfl, rfl⟩
  have empty : s0.a4e.phase = 0 := congrArg A4eRegs.phase fresh
  obtain ⟨bytes, t, coded, symbols, last⟩ := exists_adp4EncodeLoop_symbols samples empty
  have length : bytes.length = (xs.length + 1) / 2 := by
    simpa [adp4EncodeLength_eq, empty] using length_of_adp4EncodeLoop coded
  obtain ⟨t0, init', answer', fresh', kept⟩ : ∃ t0, exec .a4dInit t = .next t0 ∧ t0.rsp = some ⟨0, 0⟩ ∧ t0.a4d = ⟨0, 0⟩
      ∧ t0.a4e = t.a4e := ⟨_, rfl, rfl, rfl, rfl⟩
  have same : t0.a4d = s0.a4e.predictor := by rw [fresh', fresh]; rfl
  have encoded : adp4EncodeFresh xs cap s = .done bytes t := by
    rw [adp4EncodeFresh, freshStream_of_issue (issue_of_exec rfl init answer) rfl]
    exact adp4Encode_eq_done_iff.2 ⟨length.trans_le fits, coded⟩
  have decoded {bytes' : List Byte} {out : List Int} {u : State} (length' : bytes'.length = bytes.length)
      (decodes : Adp4Decodes xs.length bytes' t0 out u) : adp4DecodeFresh bytes' xs.length cap' t = .done out u := by
    rw [adp4DecodeFresh, freshStream_of_issue (issue_of_exec rfl init' answer') rfl]
    exact adp4Decode_eq_done_iff.2 ⟨(length'.trans length).ge, fits', decodes⟩
  obtain ⟨u, decodes, followed⟩ := exists_adp4Decodes_of_symbols same length.ge symbols
  have agree : u.a4d = u.a4e.predictor := by rw [followed, ← last, decodes.a4e_eq, kept]
  refine ⟨s0, t, u, bytes, init, ?_, encoded, decoded rfl decodes, congrArg A4dRegs.pred agree, congrArg A4dRegs.idx agree,
    fun odd low => ?_⟩
  · rw [List.length_map, length_execTrace, List.length_map]
  · have length' := length_replaceLastLow low bytes
    have symbols' := (take_nibblesOf_replaceLastLow (by omega) low).trans symbols
    obtain ⟨u', decodes', -⟩ := exists_adp4Decodes_of_symbols same (length'.trans length).ge symbols'
    exact ⟨u', decoded length' decodes'⟩

end Sys2Proof.Machine
end

section
/-! PROOFS. INIT of both SDX2 units and the other commands of S2D, one by one (R105, R106, R108, R123; O43 to O45), and how both
units' channel pointers move along a run (R100, O48). -/

namespace Sys2Proof.Machine

/-- A channel that was written with an `int16` reads it back (R14). -/
theorem s2dWrite_prev_same {r : S2dRegs} {c q : Bit} {p : Int} (fits : isInt16 p) : (s2dWrite r c p q).prev c = p :=
  (congrArg BitVec.toInt (channelGet_set_same c _ _ _)).trans (bitsOf_16_toInt p fits.1 fits.2)

/-- R108: the reconstruction of the byte becomes the current channel's previous sample and is answered, and the pointer moves
on. -/
theorem exec_s2dByte (b : Byte) (s : State) :
    ∃ t, exec (.s2dByte b) s = .next t
      ∧ t.s2d = s2dWrite s.s2d s.s2d.ch (sdx2Recon b (s.s2d.prev s.s2d.ch)) (nextChannel s.s2d.ch s.s2d.nch)
      ∧ t.rsp = some ⟨bitsOf 64 (sdx2Recon b (s.s2d.prev s.s2d.ch)), 0⟩ :=
  ⟨_, rfl, rfl, rfl⟩

/-- A reconstruction is answered sign-extended (R104, R108). -/
theorem bitsOf_64_sdx2Recon (b : Byte) (prev : Int) : (bitsOf 64 (sdx2Recon b prev)).toInt = sdx2Recon b prev := by
  obtain ⟨lower, upper⟩ := sdx2Recon_mem b prev
  exact bitsOf_64_toInt _ (by omega) (by omega)

/-- R100: in a stream of one or two channels the pointer moves on modulo their number, and its one bit loses nothing. -/
theorem nextChannel_toNat (c : Bit) {nch : BitVec 2} (count : nch.toNat = 1 ∨ nch.toNat = 2) :
    (nextChannel c nch).toNat = (c.toNat + 1) % nch.toNat := by
  have positive : nch.toNat ≠ 0 := by omega
  have below : (c.toNat + 1) % nch.toNat < 2 := (Nat.mod_lt _ (by omega)).trans_le (by omega)
  rw [nextChannel, modulo, if_neg positive, BitVec.toNat_ofNat, Nat.mod_eq_of_lt below]

/-- Settles O43: the accepted counts fit the register, and the other ones are those that R171 lists. -/
theorem sdxInitChannelCount : Obligations.SdxInitChannelCount := by
  refine ⟨fun a b c => by rw [decode_s2dInit, zextField_8], fun a b c => by rw [decode_s2eInit, zextField_8],
    fun k s => ⟨fun count => ?accepted, fun not1 not2 => ?rejected⟩⟩
  case accepted =>
    have legal : legalChannelCount k = true := legalChannelCount_iff.2 (by omega)
    have stored : (BitVec.ofNat 2 k).toNat = k := by
      rw [BitVec.toNat_ofNat]
      omega
    have runD : exec (.s2dInit k) s = complete yZero (s.withS2d ⟨BitVec.ofNat 2 k, 0, 0, 0⟩) := if_pos legal
    have runE : exec (.s2eInit k) s = complete yZero (s.withS2e ⟨BitVec.ofNat 2 k, 0, 0, 0, 0, 0⟩) := if_pos legal
    exact ⟨⟨_, runD, stored, rfl, rfl, rfl, rfl, exec_onlyUnit runD⟩,
      ⟨_, runE, stored, rfl, rfl, rfl, rfl, rfl, rfl, exec_onlyUnit runE⟩⟩
  case rejected =>
    exact ⟨exec_of_rejects (i := .s2dInit k) ⟨not1, not2⟩, exec_of_rejects (i := .s2eInit k) ⟨not1, not2⟩⟩

/-- Settles O44: both channels in the stream, one channel is written; one of them missing, R171 lists the command. -/
theorem sdxDecoderLoad : Obligations.SdxDecoderLoad := by
  refine ⟨fun a b c => by rw [decode_s2dLoad, sextField_16, bitField_one_eq_ofBool, bitField_one_eq_ofBool],
    fun p c q s fits => ⟨fun hc hq => ?present, fun missing => exec_of_rejects (i := .s2dLoad p c q) missing⟩⟩
  case present =>
    have run : exec (.s2dLoad p c q) s = complete yZero (s.withS2d (s2dWrite s.s2d c p q)) :=
      if_neg (by rw [missingChannel_or_iff]; omega)
    exact ⟨_, run, s2dWrite_prev_same fits, fun _ => s2dWrite_prev_other, rfl, rfl, rfl, exec_onlyUnit run⟩

/-- Settles O45: what is written and answered is a reconstruction, which is an `int16`. -/
theorem sdxDecodeOneByte : Obligations.SdxDecodeOneByte := by
  refine ⟨fun a b c => by rw [decode_s2dByte, bitField_0_8], fun b s count => ?_⟩
  obtain ⟨t, run, written, answer⟩ := exec_s2dByte b s
  refine ⟨t, _, run, ?_, fun d other => ?_, ?_, ?_, answer, bitsOf_64_sdx2Recon _ _, exec_onlyUnit run⟩ <;> rw [written]
  · exact s2dWrite_prev_same (sdx2Recon_mem _ _)
  · exact s2dWrite_prev_other other
  · exact nextChannel_toNat _ count
  · rfl

/-- R100: where every command of a run moves a unit's pointer on and keeps its channel count, the pointer counts the commands
modulo the channel count. -/
theorem channel_of_execTrace {α : Type} {cmd : α → Instr} {nch : State → BitVec 2} {ch : State → Bit}
    (moves : ∀ a s, ∃ t, exec (cmd a) s = .next t ∧ nch t = nch s ∧ ch t = nextChannel (ch s) (nch s)) (as : List α)
    {s : State} (legal : ChannelsLegal (nch s) (ch s)) :
    (ch ((execTrace (as.map cmd) s).getLast?.getD s)).toNat = ((ch s).toNat + as.length) % (nch s).toNat := by
  induction as generalizing s with
  | nil => exact (Nat.mod_eq_of_lt legal.current).symm
  | cons a as ih =>
    obtain ⟨t, run, kept, moved⟩ := moves a s
    have legal' : ChannelsLegal (nch t) (ch t) := by
      rw [kept, moved]
      exact legal.next
    rw [List.map_cons, execTrace_cons _ run, getD_getLast?_cons, ih legal', kept, moved, nextChannel_toNat _ legal.count,
      Nat.mod_add_mod, List.length_cons, Nat.add_assoc, Nat.add_comm 1]

/-- Settles O48: both units move their pointer alike, once per command. -/
theorem channelsAlternate : Obligations.ChannelsAlternate := by
  rintro s ⟨-, -, legalD, legalE⟩
  have length {α : Type} (cmd : α → Instr) (as : List α) : (execTrace (as.map cmd) s).length = as.length := by
    rw [length_execTrace, List.length_map]
  refine ⟨fun bytes start => ⟨length _ _, ?_⟩, fun samples start => ⟨length _ _, ?_⟩⟩
  · have pointer := channel_of_execTrace (cmd := .s2dByte) (nch := fun t => t.s2d.nch) (ch := fun t => t.s2d.ch)
      (fun _ _ => ⟨_, rfl, rfl, rfl⟩) bytes (S2dRegs.legal_iff.1 legalD)
    simpa [start] using pointer
  · have pointer := channel_of_execTrace (cmd := .s2eSample) (nch := fun t => t.s2e.nch) (ch := fun t => t.s2e.ch)
      (fun _ _ => ⟨_, rfl, rfl, rfl⟩) samples (S2eRegs.legal_iff.1 legalE)
    simpa [start] using pointer

end Sys2Proof.Machine
end

section
/-! PROOFS. S2D in the state of S2E's channels follows it, byte by byte (R104, R108, R126, R127 (a), O51). -/

namespace Sys2Proof.Machine

/-- S2E's channels and their previous samples as S2D would hold them (R27, R28). -/
def S2eRegs.channels (r : S2eRegs) : S2dRegs := ⟨r.nch, r.ch, r.prev0, r.prev1⟩

theorem S2eRegs.prev_channels (r : S2eRegs) (c : Bit) : r.channels.prev c = r.prev c := rfl

/-- R126: the report carries the byte chosen for the sample and that byte's reconstruction, and S2E's channels are written as S2D
would write them. -/
theorem exec_s2eSample (x : Int) (s : State) :
    ∃ t b r, exec (.s2eSample x) s = .next t
      ∧ b = sdx2Enc x (s.s2e.prev s.s2e.ch) (s.s2e.started s.s2e.ch) ∧ r = sdx2Recon b (s.s2e.prev s.s2e.ch)
      ∧ t.s2e.channels = s2dWrite s.s2e.channels s.s2e.ch r (nextChannel s.s2e.ch s.s2e.nch)
      ∧ t.yField? 0 8 = some b ∧ t.yField? 16 16 = some (bitsOf 16 r) := by
  refine ⟨_, _, _, rfl, rfl, rfl, rfl, congrArg some (?byte : bitField _ 0 8 = _),
    congrArg some (?recon : bitField _ 16 16 = _)⟩
  case byte =>
    rw [bitField_setField_apart _ _ _ _ (by decide) (by decide), bitField_setField_apart _ _ _ _ (by decide) (by decide),
      bitField_setField_same _ _ _ (by decide)]
  case recon =>
    rw [bitField_setField_apart _ _ _ _ (by decide) (by decide), bitField_setField_same _ _ _ (by decide)]

/-- The key step of R127 (a): where S2D is in the state of S2E's channels, decoding the byte just emitted leads it to their new
state and answers the reported reconstruction. -/
theorem exec_s2dByte_follows {s s' : State} (same : s'.s2d = s.s2e.channels) (x : Int) :
    ∃ t t', exec (.s2eSample x) s = .next t ∧ exec (.s2dByte ((t.yField? 0 8).getD 0)) s' = .next t'
      ∧ t'.s2d = t.s2e.channels ∧ t'.ySigned? = (t.yField? 16 16).map BitVec.toInt := by
  obtain ⟨t, b, r, coded, -, recon, channels, byte, report⟩ := exec_s2eSample x s
  obtain ⟨t', decoded, written, answer⟩ := exec_s2dByte b s'
  have previous : s'.s2d.prev s'.s2d.ch = s.s2e.prev s.s2e.ch := by
    rw [same]
    exact S2eRegs.prev_channels _ _
  rw [previous, ← recon] at written answer
  obtain ⟨lower, upper⟩ : isInt16 r := recon ▸ sdx2Recon_mem _ _
  refine ⟨t, t', coded, by rw [byte]; exact decoded, ?_, ?_⟩
  · rw [written, channels, same]
    rfl
  · rw [State.ySigned?, answer, report, Option.map_some, Option.map_some, bitsOf_16_toInt r lower upper,
      bitsOf_64_toInt r (by omega) (by omega)]

/-- Settles O51, by induction over the samples from `exec_s2dByte_follows`; it holds whatever the channel count. -/
theorem sdxDecoderTracksEncoder : Obligations.SdxDecoderTracksEncoder := by
  rintro xs s s' - same
  induction xs generalizing s s' with
  | nil => exact ⟨rfl, rfl, rfl, rfl⟩
  | cons x xs ih =>
    obtain ⟨t, t', coded, decoded, follows, answer⟩ := exec_s2dByte_follows same x
    obtain ⟨coders, decoders, states, answers⟩ := ih t t' follows
    simp only [List.map_cons, execTrace_cons _ coded, execTrace_cons _ decoded]
    exact ⟨congrArg (· + 1) coders, congrArg (· + 1) decoders, congrArg₂ List.cons follows states,
      congrArg₂ List.cons answer answers⟩

end Sys2Proof.Machine
end

section
/-! PROOFS. The stream procedures of SDX2 (R153, R154) as one procedure, which issues one command per input and reads one value
from each response, and its cut anywhere (R159, O56). -/

namespace Sys2Proof.Machine

/-- The loop that `SDX2_DECODE` and `SDX2_ENCODE` share: issue a command for each input, append what its response carries. -/
def streamLoop {α β : Type} (cmd : α → Instr) (value : Response → β) : List α → List β → State → StreamResult β
  | [], out, s => .done out s
  | a :: rest, out, s =>
    match issue (cmd a) s with
    | some (t, r) => streamLoop cmd value rest (out ++ [value r]) t
    | none => .stopped

/-- The procedure in its continue form: the capacity is checked before the loop (R156). -/
def streamCall {α β : Type} (cmd : α → Instr) (value : Response → β) (as : List α) (cap : Nat) (s : State) :
    StreamResult β :=
  if cap < as.length then .invalidArgument s else streamLoop cmd value as [] s

theorem sdx2DecodeLoop_eq_streamLoop (bytes : List Byte) (out : List Int) (s : State) :
    sdx2DecodeLoop bytes out s = streamLoop .s2dByte (sampleAt · 0) bytes out s := by
  induction bytes generalizing out s with
  | nil => rfl
  | cons b rest ih =>
    cases issued : issue (.s2dByte b) s with
    | none => simp only [sdx2DecodeLoop, streamLoop, issued]
    | some q => simp only [sdx2DecodeLoop, streamLoop, issued, ih]

theorem sdx2EncodeLoop_eq_streamLoop (samples : List Int) (out : List Byte) (s : State) :
    sdx2EncodeLoop samples out s = streamLoop .s2eSample byteOf samples out s := by
  induction samples generalizing out s with
  | nil => rfl
  | cons x rest ih =>
    cases issued : issue (.s2eSample x) s with
    | none => simp only [sdx2EncodeLoop, streamLoop, issued]
    | some q => simp only [sdx2EncodeLoop, streamLoop, issued, ih]

theorem sdx2Decode_eq_streamCall (bytes : List Byte) (cap : Nat) (s : State) :
    sdx2Decode bytes cap s = streamCall .s2dByte (sampleAt · 0) bytes cap s := by
  rw [sdx2Decode, streamCall, sdx2DecodeLoop_eq_streamLoop]

theorem sdx2Encode_eq_streamCall (samples : List Int) (cap : Nat) (s : State) :
    sdx2Encode samples cap s = streamCall .s2eSample byteOf samples cap s := by
  rw [sdx2Encode, streamCall, sdx2EncodeLoop_eq_streamLoop]

section
variable {α β : Type} {cmd : α → Instr} {value : Response → β}

/-- A loop that completes has had a response to its first command and completes from there. -/
theorem exists_issue_of_streamLoop_cons {a : α} {rest : List α} {out o : List β} {s u : State}
    (h : streamLoop cmd value (a :: rest) out s = .done o u) :
    ∃ t r, issue (cmd a) s = some (t, r) ∧ streamLoop cmd value rest (out ++ [value r]) t = .done o u := by
  unfold streamLoop at h
  split at h
  next t r issued => exact ⟨t, r, issued, h⟩
  next => cases h

theorem streamLoop_cons {a : α} {s t : State} {r : Response} (issued : issue (cmd a) s = some (t, r)) (rest : List α)
    (out : List β) : streamLoop cmd value (a :: rest) out s = streamLoop cmd value rest (out ++ [value r]) t := by
  rw [streamLoop, issued]

theorem streamLoop_append {as : List α} {out o : List β} {s t : State} (h : streamLoop cmd value as out s = .done o t)
    (as' : List α) : streamLoop cmd value (as ++ as') out s = streamLoop cmd value as' o t := by
  induction as generalizing out s with
  | nil => cases h; rfl
  | cons a as ih =>
    obtain ⟨u, r, issued, later⟩ := exists_issue_of_streamLoop_cons h
    rw [List.cons_append, streamLoop_cons issued, ih later]

/-- What was emitted before stays in front. -/
theorem streamLoop_append_out {as : List α} {out o : List β} {s t : State} (h : streamLoop cmd value as out s = .done o t)
    (before : List β) : streamLoop cmd value as (before ++ out) s = .done (before ++ o) t := by
  induction as generalizing out s with
  | nil => cases h; rfl
  | cons a as ih =>
    obtain ⟨u, r, issued, later⟩ := exists_issue_of_streamLoop_cons h
    rw [streamLoop_cons issued, List.append_assoc, ih later]

/-- One value is emitted per input. -/
theorem length_of_streamLoop {as : List α} {out o : List β} {s t : State} (h : streamLoop cmd value as out s = .done o t) :
    o.length = out.length + as.length := by
  induction as generalizing out s with
  | nil => cases h; rfl
  | cons a as ih =>
    obtain ⟨u, r, issued, later⟩ := exists_issue_of_streamLoop_cons h
    rw [ih later, List.length_append, List.length_singleton, List.length_cons, Nat.add_assoc, Nat.add_comm 1]

/-- The procedure completes exactly where its output fits and its loop completes. -/
theorem streamCall_eq_done_iff {as : List α} {cap : Nat} {o : List β} {s t : State} :
    streamCall cmd value as cap s = .done o t ↔ o.length ≤ cap ∧ streamLoop cmd value as [] s = .done o t := by
  unfold streamCall
  split
  next short =>
    refine iff_of_false nofun fun ⟨fits, done⟩ => ?_
    rw [length_of_streamLoop done, List.length_nil] at fits
    omega
  next enough =>
    refine ⟨fun done => ⟨?_, done⟩, And.right⟩
    rw [length_of_streamLoop done, List.length_nil]
    omega

/-- R159: the loop of the whole is that of the second part, begun where that of the first part ended. -/
theorem streamCall_append {as as' : List α} {cap1 cap2 cap : Nat} {s s1 s2 : State} {o1 o2 : List β}
    (h1 : streamCall cmd value as cap1 s = .done o1 s1) (h2 : streamCall cmd value as' cap2 s1 = .done o2 s2)
    (fits : o1.length + o2.length ≤ cap) : streamCall cmd value (as ++ as') cap s = .done (o1 ++ o2) s2 := by
  obtain ⟨-, done1⟩ := streamCall_eq_done_iff.1 h1
  obtain ⟨-, done2⟩ := streamCall_eq_done_iff.1 h2
  have whole : streamLoop cmd value (as ++ as') [] s = .done (o1 ++ o2) s2 := by
    rw [streamLoop_append done1]
    simpa using streamLoop_append_out done2 o1
  exact streamCall_eq_done_iff.2 ⟨by rwa [List.length_append], whole⟩

end

/-- Settles O56: both directions are the one procedure. -/
theorem sdxInChunks : Obligations.SdxInChunks := by
  simp only [Obligations.SdxInChunks, sdx2Decode_eq_streamCall, sdx2Encode_eq_streamCall]
  exact ⟨fun _ _ _ _ _ _ _ _ _ _ => streamCall_append, fun _ _ _ _ _ _ _ _ _ _ => streamCall_append⟩

end Sys2Proof.Machine
end

section
/-! PROOFS. The reconstruction of a byte (R101 to R104, O35), the samples of exact mode (R109, R110, O36), and the byte the encoder
chooses against the sample's exact code (R127 (b), (c), O42). -/

namespace Sys2Proof.Machine

theorem sdx2Sq_eq (m : Int) : sdx2Sq m = 2 * m * |m| := by
  rw [sdx2Sq, Int.natCast_natAbs]

/-- R102: the mode bit is the byte's parity. -/
theorem sdx2Mode_eq (b : Byte) : sdx2Mode b = decide (b.toNat % 2 = 1) := by
  rw [sdx2Mode, BitVec.getLsbD, Nat.testBit_zero]

/-- R103: the byte rounded down to even, read as signed. -/
theorem mval_eq (b : Byte) :
    mval b = if b.toNat < 128 then ((b.toNat / 2 * 2 : Nat) : Int) else ((b.toNat / 2 * 2 : Nat) : Int) - 256 := by
  revert b
  decide +kernel

theorem clamp16_eq_max_min (z : Int) : clamp16 z = max (-32768) (min z 32767) :=
  clamp_eq_max_min z _ _ (by decide)

theorem sdx2Recon_of_even {b : Byte} (even : b.toNat % 2 = 0) (prev : Int) :
    sdx2Recon b prev = clamp16 (sdx2Sq (mval b)) :=
  if_neg (by rw [sdx2Mode_eq, decide_eq_true_iff]; omega)

theorem sdx2Recon_of_odd {b : Byte} (odd : b.toNat % 2 = 1) (prev : Int) :
    sdx2Recon b prev = clamp16 (prev + sdx2Sq (mval b)) :=
  if_pos (by rw [sdx2Mode_eq, decide_eq_true_iff]; exact odd)

/-- Settles O35, mode by mode. -/
theorem sdxReconstruction : Obligations.SdxReconstruction := by
  refine ⟨sdx2Sq_eq, fun b => ⟨mval_eq b, fun prev => ⟨fun even => ?_, fun odd => ?_⟩⟩⟩
  · rw [sdx2Recon_of_even even, clamp16_eq_max_min, sdx2Sq_eq, mval_eq]
  · rw [sdx2Recon_of_odd odd, clamp16_eq_max_min, sdx2Sq_eq, mval_eq]

/-- R109: no exact byte saturates. -/
theorem sdx2Recon_of_even_eq_sdx2Sq {b : Byte} (even : b.toNat % 2 = 0) (prev : Int) :
    sdx2Recon b prev = sdx2Sq (mval b) := by
  obtain ⟨lower, upper⟩ := mval_mem b
  obtain ⟨lower', upper'⟩ := sdx2Sq_mem lower upper
  rw [sdx2Recon_of_even even, clamp16_eq_max_min]
  omega

/-- The even values that bytes carry: each is carried by an exact byte. -/
theorem exists_exact_byte {j : Int} (lower : -64 ≤ j) (upper : j ≤ 63) : ∃ b : Byte, b.toNat % 2 = 0 ∧ mval b = 2 * j := by
  refine ⟨BitVec.ofInt 8 (2 * j), ?_, ?_⟩
  · rw [BitVec.toNat_ofInt]
    omega
  · rw [mval_eq, BitVec.toNat_ofInt]
    split <;> omega

/-- The value of a byte is even. -/
theorem exists_mval_eq_two_mul (b : Byte) : ∃ j : Int, -64 ≤ j ∧ j ≤ 63 ∧ mval b = 2 * j := by
  obtain ⟨lower, upper⟩ := mval_mem b
  refine ⟨mval b / 2, by omega, by omega, ?_⟩
  rw [mval_eq]
  split <;> omega

/-- The signed square is injective. -/
theorem mul_abs_injective {j k : Int} (h : j * |j| = k * |k|) : j = k := by
  have magnitudes : |j| = |k| := by
    have squares := congrArg abs h
    rw [abs_mul, abs_mul, abs_abs, abs_abs] at squares
    exact (mul_self_inj (abs_nonneg j) (abs_nonneg k)).1 squares
  rcases eq_or_ne |k| 0 with zero | nonzero
  · rw [abs_eq_zero.1 zero, abs_eq_zero.1 (magnitudes.trans zero)]
  · rw [magnitudes] at h
    exact mul_right_cancel₀ nonzero h

/-- Settles O36: exact bytes carry the even values, none of whose signed squares saturates or meets another. -/
theorem exactModeSamples : Obligations.ExactModeSamples := by
  refine ⟨fun b prev1 prev2 even => ?_, fun v => ⟨?_, ?_⟩, fun j j' same => ?_⟩
  · rw [sdx2Recon_of_even even, sdx2Recon_of_even even]
  · rintro ⟨b, prev, even, rfl⟩
    obtain ⟨j, lower, upper, value⟩ := exists_mval_eq_two_mul b
    exact ⟨j, lower, upper, by rw [sdx2Recon_of_even_eq_sdx2Sq even, value, sdx2Sq_eq]⟩
  · rintro ⟨j, lower, upper, rfl⟩
    obtain ⟨b, even, value⟩ := exists_exact_byte lower upper
    exact ⟨b, 0, even, by rw [sdx2Recon_of_even_eq_sdx2Sq even, value, sdx2Sq_eq]⟩
  · rw [mul_assoc, mul_assoc 2 (2 * j')] at same
    have doubled := mul_abs_injective (mul_left_cancel₀ two_ne_zero same)
    omega

/-- R117: an exact code has mode bit 0. -/
theorem exactCode_even (v : Int) : (exactCode v).toNat % 2 = 0 := by
  have mode : sdx2Mode (exactCode v) = false := by simp [sdx2Mode, exactCode]
  rw [sdx2Mode_eq, decide_eq_false_iff_not] at mode
  omega

/-- A byte with its error on a sample (R119). -/
def Scored (x prev : Int) (best : Byte × Nat) : Prop := best.2 = sdx2Err x best.1 prev

/-- R120: a pass keeps a byte with its error, and only a smaller error replaces it. -/
theorem sdx2SearchPass_scored {b : Byte} {x prev : Int} {best : Byte × Nat} (scored : Scored x prev best) (delta : Int) :
    Scored x prev (sdx2SearchPass b x prev best delta) ∧ (sdx2SearchPass b x prev best delta).2 ≤ best.2 := by
  unfold sdx2SearchPass
  dsimp only
  split
  next =>
    split
    next smaller => exact ⟨rfl, smaller.le⟩
    next => exact ⟨scored, le_rfl⟩
  next => exact ⟨scored, le_rfl⟩

/-- R120: the search gives a byte with its error, which is not above that of the byte it starts from. -/
theorem sdx2Search_scored (b : Byte) (x prev : Int) :
    Scored x prev (sdx2Search b x prev) ∧ (sdx2Search b x prev).2 ≤ sdx2Err x b prev := by
  have start : Scored x prev (b, sdx2Err x b prev) := rfl
  obtain ⟨first, le⟩ := sdx2SearchPass_scored (b := b) start sdx2SearchStep
  obtain ⟨second, le'⟩ := sdx2SearchPass_scored (b := b) first (-sdx2SearchStep)
  exact ⟨second, le'.trans le⟩

/-- R122: the byte of a later sample has no greater error than the refined exact code. -/
theorem sdx2Err_sdx2Enc_le_search (x prev : Int) :
    sdx2Err x (sdx2Enc x prev 1) prev ≤ (sdx2Search (exactCode x) x prev).2 := by
  have exact_scored := (sdx2Search_scored (exactCode x) x prev).1
  have delta_scored := (sdx2Search_scored (sdx2Guard (deltaCode (x - prev)) prev) x prev).1
  unfold sdx2Enc
  rw [if_neg (by decide)]
  dsimp only
  split
  next => exact exact_scored.ge
  next =>
    split
    next smaller => exact delta_scored.ge.trans smaller.le
    next => exact exact_scored.ge

/-- Settles O42: the refined exact code is not worse than the exact code, and the chosen byte is not worse than it. -/
theorem chosenByteIsNeverWorse : Obligations.ChosenByteIsNeverWorse :=
  fun x prev => ⟨exactCode_even x, (sdx2Err_sdx2Enc_le_search x prev).trans (sdx2Search_scored _ _ _).2⟩

end Sys2Proof.Machine
end

section
/-! PROOFS. The stream procedures of SDX2 as runs of their commands, and the fresh decode of the fresh encode (R127, R160,
O58). -/

namespace Sys2Proof.Machine

/-- The loop of a stream procedure runs its commands one after another and reads a value from each response (R153, R154). -/
theorem exists_streamLoop_eq_done {α β : Type} {cmd : α → Instr} {value : Response → β} {as : List α}
    (wf : ∀ a ∈ as, (cmd a).wellFormed = true) (s : State) :
    ∃ (rs : List Response) (t : State), (execTrace (as.map cmd) s).map State.rsp = rs.map some
      ∧ streamLoop cmd value as [] s = .done (rs.map value) t := by
  induction as generalizing s with
  | nil => exact ⟨[], s, rfl, rfl⟩
  | cons a as ih =>
    obtain ⟨wfFirst, wfRest⟩ := List.forall_mem_cons.1 wf
    obtain ⟨t, r, ran, answer, issued⟩ := exists_issue_eq wfFirst s
    obtain ⟨rs, u, responses, looped⟩ := ih wfRest t
    refine ⟨r :: rs, u, ?_, ?_⟩
    · rw [List.map_cons, execTrace_cons _ ran, List.map_cons, answer, responses, List.map_cons]
    · rw [streamLoop_cons issued]
      exact streamLoop_append_out looped [value r]

/-- What is computed from the responses along a run, where those are known. -/
theorem map_of_map_rsp {γ : Type} {ts : List State} {rs : List Response} (responses : ts.map State.rsp = rs.map some)
    (f : Option Response → γ) : ts.map (fun t => f t.rsp) = rs.map (fun r => f (some r)) :=
  List.map_map.symm.trans ((congrArg (List.map f) responses).trans List.map_map)

/-- An `int16` answered on the whole bus is read back from its low 16 bits (R13, R153). -/
theorem sampleAt_zero_of_isInt16 {r : Response} (fits : isInt16 r.y.toInt) : sampleAt r 0 = r.y.toInt := by
  have read := sextField_busInt_16 (fitsSigned_16_of_isInt16 fits)
  rwa [busInt, BitVec.ofInt_toInt] at read

/-- Where the buses hold what 16-bit fields hold, the decoder's samples are those fields. -/
theorem map_sampleAt_zero {rs rs' : List Response} (values : rs'.map (fun r => r.y.toInt) = rs.map (sampleAt · 16)) :
    rs'.map (sampleAt · 0) = rs.map (sampleAt · 16) := by
  rw [← values]
  refine List.map_congr_left fun r member => sampleAt_zero_of_isInt16 ?_
  obtain ⟨q, -, value⟩ := List.mem_map.1 (values ▸ List.mem_map_of_mem member)
  exact value ▸ isInt16_toInt _

/-- From equal channels, `SDX2_DECODE` of the bytes that `SDX2_ENCODE` emits gives the reconstructions that `S2E.SAMPLE` reports:
O51 read from the responses. -/
theorem exists_sdx_streamLoops {xs : List Int} (samples : ∀ x ∈ xs, isInt16 x) {s : State}
    (count : s.s2e.nch.toNat = 1 ∨ s.s2e.nch.toNat = 2) :
    ∃ (bytes : List Byte) (recons : List Int) (t : State), recons.length = xs.length
      ∧ (execTrace (xs.map .s2eSample) s).map (fun v => (v.yField? 16 16).map BitVec.toInt) = recons.map some
      ∧ streamLoop .s2eSample byteOf xs [] s = .done bytes t
      ∧ ∀ s' : State, s'.s2d = s.s2e.channels →
          ∃ u, streamLoop .s2dByte (sampleAt · 0) bytes [] s' = .done recons u := by
  obtain ⟨rs, t, coded, encoded⟩ := exists_streamLoop_eq_done (cmd := .s2eSample) (value := byteOf)
    (fun x hx => fitsSigned_16_of_isInt16 (samples x hx)) s
  have reported : (execTrace (xs.map .s2eSample) s).map (fun v => (v.yField? 16 16).map BitVec.toInt)
      = (rs.map (sampleAt · 16)).map some := by
    rw [List.map_map]
    exact map_of_map_rsp coded fun o => (o.map fun r => r.y.extractLsb' 16 16).map BitVec.toInt
  have emitted : (execTrace (xs.map .s2eSample) s).map (fun v => (v.yField? 0 8).getD 0) = rs.map byteOf :=
    map_of_map_rsp coded fun o => (o.map fun r : Response => r.y.extractLsb' 0 8).getD (0 : Byte)
  refine ⟨rs.map byteOf, rs.map (sampleAt · 16), t, ?_, reported, encoded, fun s' same => ?_⟩
  · simpa [length_execTrace] using (congrArg List.length coded).symm
  · obtain ⟨rs', u, decoded, looped⟩ := exists_streamLoop_eq_done (cmd := .s2dByte) (value := (sampleAt · 0))
      (as := rs.map byteOf) (fun _ _ => rfl) s'
    obtain ⟨-, -, -, answers⟩ := sdxDecoderTracksEncoder xs s s' count same
    rw [emitted, reported] at answers
    have values : rs'.map (fun r => r.y.toInt) = rs.map (sampleAt · 16) := by
      apply List.map_injective_iff.2 (Option.some_injective Int)
      rw [← answers, List.map_map]
      exact (map_of_map_rsp decoded (Option.map fun r => r.y.toInt)).symm
    exact ⟨u, by rw [looped, map_sampleAt_zero values]⟩

/-- Settles O58: both INIT commands leave the same channels, so the decoder tracks the encoder from its first byte (O51). -/
theorem sdxRoundTrip : Obligations.SdxRoundTrip := by
  intro xs channels s cap cap' samples count fits fits'
  have legal : legalChannelCount channels = true := legalChannelCount_iff.2 (by omega)
  have operand : fitsUnsigned 8 channels = true := decide_eq_true (by omega)
  obtain ⟨s0, init, answer, fresh⟩ : ∃ s0, exec (.s2eInit channels) s = .next s0 ∧ s0.rsp = some ⟨0, 0⟩
      ∧ s0.s2e = ⟨BitVec.ofNat 2 channels, 0, 0, 0, 0, 0⟩ := ⟨_, if_pos legal, rfl, rfl⟩
  obtain ⟨bytes, recons, t, length, reported, encoded, follows⟩ := exists_sdx_streamLoops samples (s := s0)
    (by rw [fresh]; exact (ChannelsLegal.init count).count)
  obtain ⟨t0, init', answer', fresh'⟩ : ∃ t0, exec (.s2dInit channels) t = .next t0 ∧ t0.rsp = some ⟨0, 0⟩
      ∧ t0.s2d = ⟨BitVec.ofNat 2 channels, 0, 0, 0⟩ := ⟨_, if_pos legal, rfl, rfl⟩
  obtain ⟨u, decoded⟩ := follows t0 (by rw [fresh, fresh']; rfl)
  refine ⟨s0, t, u, bytes, recons, init, length, reported, ?_, ?_⟩
  · have issued := issue_of_exec (decode_encode (i := .s2eInit channels) operand) init answer
    rw [sdx2EncodeFresh, freshStream_of_issue issued rfl, sdx2Encode_eq_streamCall]
    refine streamCall_eq_done_iff.2 ⟨?_, encoded⟩
    rw [length_of_streamLoop encoded]
    simpa using fits
  · have issued := issue_of_exec (decode_encode (i := .s2dInit channels) operand) init' answer'
    rw [sdx2DecodeFresh, freshStream_of_issue issued rfl, sdx2Decode_eq_streamCall]
    exact streamCall_eq_done_iff.2 ⟨length.trans_le fits', decoded⟩

end Sys2Proof.Machine
end

section
/-! PROOFS. The commands LOAD and SAMPLE of S2E, one by one (R124, R126; O46, O47). -/

namespace Sys2Proof.Machine

/-- A channel that was written with an `int16` reads it back (R14). -/
theorem s2eWrite_prev_same {r : S2eRegs} {c f q : Bit} {p : Int} (fits : isInt16 p) : (s2eWrite r c p f q).prev c = p :=
  (congrArg BitVec.toInt (channelGet_set_same c _ _ _)).trans (bitsOf_16_toInt p fits.1 fits.2)

theorem s2eWrite_started_same {r : S2eRegs} {c f q : Bit} {p : Int} : (s2eWrite r c p f q).started c = f :=
  channelGet_set_same c f _ _

/-- Settles O46: both channels in the stream, one channel is written; one of them missing, R171 lists the command. -/
theorem sdxEncoderLoad : Obligations.SdxEncoderLoad := by
  refine ⟨fun a b c => by simp only [decode_s2eLoad, sextField_16, bitField_one_eq_ofBool],
    fun p c q f s fits => ⟨fun hc hq => ?present, fun missing => exec_of_rejects (i := .s2eLoad p c q f) missing⟩⟩
  case present =>
    have run : exec (.s2eLoad p c q f) s = complete yZero (s.withS2e (s2eWrite s.s2e c p f q)) :=
      if_neg (by rw [missingChannel_or_iff]; omega)
    exact ⟨_, run, s2eWrite_prev_same fits, s2eWrite_started_same,
      fun _ other => ⟨s2eWrite_prev_other other, s2eWrite_started_other other⟩, rfl, rfl, rfl, exec_onlyUnit run⟩

/-- Settles O47: what is written is a reconstruction, which is an `int16`, and the report's fields are set in ascending order. -/
theorem sdxEncodeOneSample : Obligations.SdxEncodeOneSample := by
  refine ⟨fun a b c => by rw [decode_s2eSample, sextField_16], fun x s count => ?_⟩
  exact ⟨_, _, rfl, s2eWrite_prev_same (sdx2Recon_mem _ _), s2eWrite_started_same,
    fun _ other => ⟨s2eWrite_prev_other other, s2eWrite_started_other other⟩, nextChannel_toNat _ count, rfl, rfl,
    (((BusHolds.first _).setField _).setField _).value, exec_onlyUnit (i := .s2eSample x) rfl⟩

end Sys2Proof.Machine
end

section
/-! PROOFS. `RSQ` is the rounded square root of half its argument (R115, O37). -/

namespace Sys2Proof.Machine

/-- R115's test for a root `k` of `x`: `k == 0 or 2*k*k - 2*k < x`. -/
def RootTest (x k : Nat) : Prop := k = 0 ∨ 2 * (k : Int) * k - 2 * k < x

/-- The test as the climb makes it, in the natural numbers. -/
theorem rootTest_succ_iff {x k : Nat} : RootTest x (k + 1) ↔ 2 * (k + 1) * (k + 1) - 2 * (k + 1) < x := by
  have le : 2 * (k + 1) ≤ 2 * (k + 1) * (k + 1) := Nat.le_mul_of_pos_right _ k.succ_pos
  simp only [RootTest, Nat.add_one_ne_zero, false_or]
  zify [le]

/-- A root below one that passes passes too. -/
theorem RootTest.mono {x j k : Nat} (passes : RootTest x k) (le : j ≤ k) : RootTest x j := by
  rcases passes with rfl | below
  · exact .inl (Nat.le_zero.1 le)
  · rcases Nat.eq_zero_or_pos j with zero | pos
    · exact .inl zero
    · refine .inr (lt_of_le_of_lt ?_ below)
      have lower : (1 : Int) ≤ j := by exact_mod_cast pos
      have upper : (j : Int) ≤ k := by exact_mod_cast le
      nlinarith

/-- No root above `x` passes. -/
theorem RootTest.le_self {x k : Nat} (passes : RootTest x k) : k ≤ x := by
  rcases passes with rfl | below
  · exact x.zero_le
  · by_contra! above
    have above' : (x : Int) + 1 ≤ k := by exact_mod_cast above
    nlinarith [x.zero_le]

/-- R115: climbing from a root that passes, with enough fuel, the climb ends at the largest root that passes. -/
theorem le_rsqClimb_iff {x fuel k : Nat} (passes : RootTest x k) (enough : x ≤ fuel + k) (j : Nat) :
    j ≤ rsqClimb x fuel k ↔ RootTest x j := by
  induction fuel generalizing k with
  | zero => exact ⟨passes.mono, fun test => test.le_self.trans (show x ≤ k by omega)⟩
  | succ fuel ih =>
    unfold rsqClimb
    split
    next passesNext => exact ih (rootTest_succ_iff.2 passesNext) (by omega)
    next failsNext =>
      refine ⟨passes.mono, fun test => ?_⟩
      by_contra! above
      exact failsNext (rootTest_succ_iff.1 (test.mono above))

/-- R115: the roots that pass the test are those up to `RSQ`. -/
theorem le_rsq_iff {x k : Nat} : k ≤ rsq x ↔ RootTest x k :=
  le_rsqClimb_iff (.inl rfl) le_self_add k

theorem rsq_eq_128_iff {x : Nat} (le : x ≤ 32768) : rsq x = 128 ↔ 32513 ≤ x := by
  have passes : 128 ≤ rsq x ↔ 32513 ≤ x := by
    rw [le_rsq_iff, rootTest_succ_iff]
    omega
  have bound := rsq_le le
  omega

/-- The square root of half of `x` lies strictly between `RSQ(x) - 1/2` and `RSQ(x) + 1/2`. -/
theorem abs_sqrt_half_sub_rsq_lt (x : Nat) : |Real.sqrt ((x : ℝ) / 2) - (rsq x : ℝ)| < 1 / 2 := by
  have passes : RootTest x (rsq x) := le_rsq_iff.1 le_rfl
  have fails : ¬ RootTest x (rsq x + 1) := fun test => absurd (le_rsq_iff.2 test) (Nat.not_succ_le_self _)
  generalize rsq x = k at passes fails ⊢
  rw [abs_sub_lt_iff, sub_lt_iff_lt_add, sub_lt_comm]
  constructor
  · have above : (x : Int) ≤ 2 * (k + 1) * (k + 1) - 2 * (k + 1) := by
      simpa [RootTest] using fails
    have above' : (x : ℝ) ≤ 2 * (k + 1) * (k + 1) - 2 * (k + 1) := by exact_mod_cast above
    rw [Real.sqrt_lt' (by positivity)]
    nlinarith
  · rcases passes with rfl | below
    · exact lt_of_lt_of_le (by norm_num) (Real.sqrt_nonneg _)
    · have below' : 2 * (k : ℝ) * k - 2 * k + 1 ≤ x := by exact_mod_cast below
      apply Real.lt_sqrt_of_sq_lt
      nlinarith

/-- Settles O37: `RSQ` passes its own test, its successor does not. -/
theorem roundedRootOfHalf : Obligations.RoundedRootOfHalf := fun x =>
  ⟨le_rsq_iff.1 le_rfl, fun _ => le_rsq_iff.2, abs_sqrt_half_sub_rsq_lt x, fun le => ⟨rsq_le le, rsq_eq_128_iff le⟩⟩

end Sys2Proof.Machine
end

section
/-! PROOFS. What a byte carries, and the encoder's candidate codes (R102, R103, R116 to R118, O38). -/

namespace Sys2Proof.Machine

/-- A value in the signed byte range is carried by its byte (R13). -/
theorem bitsOf_8_toInt {v : Int} (lower : -128 ≤ v) (upper : v ≤ 127) : (bitsOf 8 v).toInt = v := by
  rw [bitsOf, BitVec.toInt_ofInt]
  exact Int.bmod_eq_of_le (by omega) (by omega)

theorem toInt_mem_byte (b : Byte) : -128 ≤ b.toInt ∧ b.toInt ≤ 127 := by
  have range := BitVec.toInt_eq_toNat_cond b
  have below := b.isLt
  split at range <;> omega

/-- R103: the value of a byte is the signed byte rounded down to even. -/
theorem mval_eq_two_mul (b : Byte) : mval b = 2 * (b.toInt / 2) := by
  rw [mval_eq, BitVec.toInt_eq_toNat_cond]
  split <;> split <;> omega

/-- R102: narrowing to a byte keeps the parity, which is the mode bit. -/
theorem bitsOf_8_toNat_mod_two {v : Int} {b : Byte} (same : v % 2 = b.toInt % 2) : (bitsOf 8 v).toNat % 2 = b.toNat % 2 := by
  rw [BitVec.toInt_eq_toNat_cond] at same
  rw [bitsOf, BitVec.toNat_ofInt]
  split at same <;> omega

theorem code8_eq (v : Int) : code8 v = max (-128) (min (scode v) 127) :=
  clamp_eq_max_min (scode v) (-128) 127 (by decide)

/-- R116: on the codec's range the clamp changes only the code 128. -/
theorem code8_eq_ite {v : Int} (lower : -32768 ≤ v) (upper : v ≤ 32768) : code8 v = if 32513 ≤ v then 127 else scode v := by
  obtain ⟨least, greatest⟩ := scode_mem lower upper
  have overflows : scode v = 128 ↔ 32513 ≤ v := by
    have largest := rsq_eq_128_iff (x := v.natAbs) (by omega)
    unfold scode
    split <;> omega
  rw [code8_eq]
  split <;> omega

theorem mval_bitsOf_code8 (v : Int) : mval (bitsOf 8 (code8 v)) = 2 * (code8 v / 2) := by
  have value := code8_eq v
  rw [mval_eq_two_mul, bitsOf_8_toInt (by omega) (by omega)]

/-- R103, R117: clearing the mode bit keeps the value. -/
theorem mval_exactCode (v : Int) : mval (exactCode v) = 2 * (code8 v / 2) := by
  rw [← mval_bitsOf_code8, mval, exactCode, BitVec.and_assoc, BitVec.and_self, mval]

/-- R103, R118: setting the mode bit keeps the value. -/
theorem mval_deltaCode (v : Int) : mval (deltaCode v) = 2 * (code8 v / 2) := by
  have cleared : (0x01#8 &&& 0xFE#8 : Byte) = 0#8 := by decide
  rw [← mval_bitsOf_code8, mval, deltaCode, BitVec.and_or_distrib_right, cleared, BitVec.or_zero, mval]

/-- R118: a delta code has mode bit 1. -/
theorem deltaCode_odd (v : Int) : (deltaCode v).toNat % 2 = 1 := by
  have mode : sdx2Mode (deltaCode v) = true := by simp [sdx2Mode, deltaCode]
  rwa [sdx2Mode_eq, decide_eq_true_iff] at mode

/-- Settles O38: both candidates carry the value of the one code. -/
theorem signedRootCodes : Obligations.SignedRootCodes := fun v =>
  ⟨rfl, code8_eq v, code8_eq_ite, mval_exactCode v, mval_deltaCode v, exactCode_even v, deltaCode_odd v⟩

end Sys2Proof.Machine
end

section
/-! PROOFS. The search among a byte and its neighbours (R120, O39). -/

namespace Sys2Proof.Machine

/-- R120: the neighbour `d` away lies in the signed byte. -/
abbrev NeighbourInByte (b : Byte) (d : Int) : Prop := -128 ≤ b.toInt + d ∧ b.toInt + d ≤ 127

/-- The neighbour `d` away from `b` with its error (R119). -/
def neighbour (b : Byte) (x prev d : Int) : Byte × Nat :=
  (bitsOf 8 (b.toInt + d), sdx2Err x (bitsOf 8 (b.toInt + d)) prev)

/-- The better of two neighbours, `best` before `d`. -/
def betterNeighbour (b : Byte) (x prev best d : Int) : Int :=
  if NeighbourInByte b d ∧ (neighbour b x prev d).2 < (neighbour b x prev best).2 then d else best

theorem neighbour_zero (b : Byte) (x prev : Int) : neighbour b x prev 0 = (b, sdx2Err x b prev) := by
  rw [neighbour, Int.add_zero, bitsOf, BitVec.ofInt_toInt]

/-- R120: a pass compares one neighbour with the best one so far. -/
theorem sdx2SearchPass_neighbour (b : Byte) (x prev best d : Int) :
    sdx2SearchPass b x prev (neighbour b x prev best) d = neighbour b x prev (betterNeighbour b x prev best d) := by
  rw [betterNeighbour, apply_ite (neighbour b x prev), ite_and]
  rfl

/-- R120: the search gives the best of the three neighbours 0, 2 and -2 away. -/
theorem sdx2Search_eq_neighbour (b : Byte) (x prev : Int) :
    sdx2Search b x prev
      = neighbour b x prev (betterNeighbour b x prev (betterNeighbour b x prev 0 2) (-2)) := by
  rw [← sdx2SearchPass_neighbour, ← sdx2SearchPass_neighbour, neighbour_zero]
  rfl

/-- R120: an even step keeps the mode bit. -/
theorem neighbour_mode {b : Byte} {d : Int} (even : d % 2 = 0) (x prev : Int) :
    (neighbour b x prev d).1.toNat % 2 = b.toNat % 2 :=
  bitsOf_8_toNat_mod_two (by omega)

/-- R120: a neighbour is taken over where it lies in the signed byte and its error is strictly smaller, and only there. -/
theorem betterNeighbour_cases (b : Byte) (x prev best d : Int) :
    betterNeighbour b x prev best d = d ∧ NeighbourInByte b d ∧ (neighbour b x prev d).2 < (neighbour b x prev best).2
      ∨ betterNeighbour b x prev best d = best
        ∧ (NeighbourInByte b d → (neighbour b x prev best).2 ≤ (neighbour b x prev d).2) := by
  unfold betterNeighbour
  split
  next better => exact .inl ⟨rfl, better⟩
  next notBetter => exact .inr ⟨rfl, fun inByte => Nat.le_of_not_lt fun smaller => notBetter ⟨inByte, smaller⟩⟩

/-- What R120 asks of the neighbour that the search answers: it lies in the signed byte, no neighbour has a smaller error, and it
is the first such one in the order 0, 2, -2. -/
structure FirstLeast (b : Byte) (x prev d : Int) : Prop where
  step : d = 0 ∨ d = 2 ∨ d = -2
  inByte : NeighbourInByte b d
  least : ∀ d', (d' = 0 ∨ d' = 2 ∨ d' = -2) → NeighbourInByte b d' →
    (neighbour b x prev d).2 ≤ (neighbour b x prev d').2
  up : d = 2 → (neighbour b x prev 2).2 < (neighbour b x prev 0).2
  down : d = -2 → (neighbour b x prev (-2)).2 < (neighbour b x prev 0).2
    ∧ (NeighbourInByte b 2 → (neighbour b x prev (-2)).2 < (neighbour b x prev 2).2)

/-- R120, by the outcomes of the two passes. -/
theorem firstLeast_betterNeighbour (b : Byte) (x prev : Int) :
    FirstLeast b x prev (betterNeighbour b x prev (betterNeighbour b x prev 0 2) (-2)) := by
  have self : NeighbourInByte b 0 := by
    rw [NeighbourInByte, Int.add_zero]
    exact toInt_mem_byte b
  obtain ⟨first, up⟩ | ⟨first, up⟩ := betterNeighbour_cases b x prev 0 2 <;> rw [first]
  · obtain ⟨second, down⟩ | ⟨second, down⟩ := betterNeighbour_cases b x prev 2 (-2) <;> rw [second]
    · exact ⟨by omega, down.1, by rintro d (rfl | rfl | rfl) <;> omega, by omega, by omega⟩
    · exact ⟨by omega, up.1, by rintro d (rfl | rfl | rfl) <;> omega, by omega, by omega⟩
  · obtain ⟨second, down⟩ | ⟨second, down⟩ := betterNeighbour_cases b x prev 0 (-2) <;> rw [second]
    · exact ⟨by omega, down.1, by rintro d (rfl | rfl | rfl) <;> omega, by omega, by omega⟩
    · exact ⟨by omega, self, by rintro d (rfl | rfl | rfl) <;> omega, by omega, by omega⟩

theorem exists_sdx2Search_eq (b : Byte) (x prev : Int) :
    ∃ d, sdx2Search b x prev = neighbour b x prev d ∧ FirstLeast b x prev d :=
  ⟨_, sdx2Search_eq_neighbour b x prev, firstLeast_betterNeighbour b x prev⟩

/-- R120: the search keeps the mode bit. -/
theorem sdx2Search_mode (b : Byte) (x prev : Int) : (sdx2Search b x prev).1.toNat % 2 = b.toNat % 2 := by
  obtain ⟨d, found, first⟩ := exists_sdx2Search_eq b x prev
  have step := first.step
  rw [found, neighbour_mode (by omega)]

/-- Settles O39, by the neighbour that the search answers. -/
theorem neighbourSearch : Obligations.NeighbourSearch := by
  intro b x prev
  obtain ⟨d, found, step, inByte, least, up, down⟩ := exists_sdx2Search_eq b x prev
  exact ⟨d, step, inByte, found, least, up, down, sdx2Search_mode b x prev⟩

end Sys2Proof.Machine
end

section
/-! PROOFS. The overflow guard and the encoder's choice (R121, R122, O40, O41). -/

namespace Sys2Proof.Machine

/-- R121: the guard's test. -/
theorem guardLimit_lt_iff {z : Int} : sdx2GuardLimit < z.natAbs ↔ 30000 < |z| := by
  rw [Int.abs_eq_natAbs]
  exact Nat.cast_lt.symm

section
variable {dc : Byte} {prev : Int}

theorem sdx2Guard_of_within (within : |prev + sdx2Sq (mval dc)| ≤ 30000 ∨ mval dc = 0) : sdx2Guard dc prev = dc := by
  rcases within with within | zero
  · exact if_neg (guardLimit_lt_iff.not.2 (not_lt.2 within))
  · simp only [sdx2Guard, zero, lt_irrefl, if_false, ite_self]

theorem sdx2Guard_of_pos (exceeds : 30000 < |prev + sdx2Sq (mval dc)|) (pos : 0 < mval dc) :
    sdx2Guard dc prev = bitsOf 8 (dc.toInt - 2) :=
  (if_pos (guardLimit_lt_iff.2 exceeds)).trans (if_pos pos)

theorem sdx2Guard_of_neg (exceeds : 30000 < |prev + sdx2Sq (mval dc)|) (neg : mval dc < 0) :
    sdx2Guard dc prev = bitsOf 8 (dc.toInt + 2) :=
  (if_pos (guardLimit_lt_iff.2 exceeds)).trans ((if_neg (by omega)).trans (if_pos neg))

end

/-- R121: the guard keeps the mode bit. -/
theorem sdx2Guard_mode (dc : Byte) (prev : Int) : (sdx2Guard dc prev).toNat % 2 = dc.toNat % 2 := by
  by_cases within : |prev + sdx2Sq (mval dc)| ≤ 30000 ∨ mval dc = 0
  · rw [sdx2Guard_of_within within]
  · obtain ⟨exceeds, nonzero⟩ := not_or.1 within
    rcases lt_or_gt_of_ne nonzero with neg | pos
    · rw [sdx2Guard_of_neg (not_le.1 exceeds) neg]
      exact bitsOf_8_toNat_mod_two (by omega)
    · rw [sdx2Guard_of_pos (not_le.1 exceeds) pos]
      exact bitsOf_8_toNat_mod_two (by omega)

/-- Settles O40: one step toward 0 stays in the signed byte. -/
theorem overflowGuard : Obligations.OverflowGuard := by
  intro dc prev
  have range := toInt_mem_byte dc
  have value := mval_eq_two_mul dc
  refine ⟨sdx2Guard_of_within, fun exceeds pos => ?_, fun exceeds neg => ?_, sdx2Guard_mode dc prev⟩
  · rw [sdx2Guard_of_pos exceeds pos, mval_eq_two_mul, bitsOf_8_toInt (by omega) (by omega)]
    omega
  · rw [sdx2Guard_of_neg exceeds neg, mval_eq_two_mul, bitsOf_8_toInt (by omega) (by omega)]
    omega

/-- R122: a later sample that differs by more than 32767 takes its refined exact code. -/
theorem sdx2Enc_of_far {x prev : Int} (far : 32767 < |x - prev|) :
    sdx2Enc x prev 1 = (sdx2Search (exactCode x) x prev).1 := by
  rw [Int.abs_eq_natAbs] at far
  exact (if_neg (by decide)).trans (if_pos (by omega))

/-- R122: any other later sample takes the refined delta code where that one's error is strictly smaller. -/
theorem sdx2Enc_of_near {x prev : Int} (near : |x - prev| ≤ 32767) :
    sdx2Enc x prev 1
      = if (sdx2Search (sdx2Guard (deltaCode (x - prev)) prev) x prev).2 < (sdx2Search (exactCode x) x prev).2
        then (sdx2Search (sdx2Guard (deltaCode (x - prev)) prev) x prev).1 else (sdx2Search (exactCode x) x prev).1 := by
  rw [Int.abs_eq_natAbs] at near
  exact (if_neg (by decide)).trans (if_neg (by omega))

/-- Settles O41: each refined code comes with its error, and its mode bit tells which of the two was taken. -/
theorem encoderChoosesSmallerError : Obligations.EncoderChoosesSmallerError := by
  intro x prev
  refine ⟨if_pos rfl, sdx2Enc_of_far, fun near => ?_⟩
  have exactScored : _ = sdx2Err _ _ _ := (sdx2Search_scored (exactCode x) x prev).1
  have deltaScored : _ = sdx2Err _ _ _ := (sdx2Search_scored (sdx2Guard (deltaCode (x - prev)) prev) x prev).1
  have exactMode := (sdx2Search_mode (exactCode x) x prev).trans (exactCode_even x)
  have deltaMode := ((sdx2Search_mode (sdx2Guard (deltaCode (x - prev)) prev) x prev).trans (sdx2Guard_mode _ _)).trans
    (deltaCode_odd (x - prev))
  rw [sdx2Enc_of_near near]
  split
  next smaller => exact ⟨by rw [← deltaScored, min_eq_right smaller.le], iff_of_true deltaMode smaller, .inr rfl⟩
  next notSmaller =>
    exact ⟨by rw [← exactScored, min_eq_left (not_lt.1 notSmaller)], iff_of_false (by omega) notSmaller, .inl rfl⟩

end Sys2Proof.Machine
end

section
/-! PROOFS. The laws of the clamp and the two CLU commands (R135 to R137, R140, R141, O18, O19, O20). -/

namespace Sys2Proof.Machine

section
variable {x lo hi : Int}

/-- R135: where the bounds are crossed, `x` cannot pass the first test and fail the second. -/
theorem clamp_of_crossed (crossed : hi < lo) : clamp x lo hi = if x < lo then lo else hi := by
  unfold clamp
  split
  next => rfl
  next notBelow => exact if_pos (by omega)

/-- R141: each branch of the clamp answers an operand. -/
theorem clamp_cases (x lo hi : Int) : clamp x lo hi = x ∨ clamp x lo hi = lo ∨ clamp x lo hi = hi := by
  unfold clamp
  split
  next => exact .inr (.inl rfl)
  next =>
    split
    next => exact .inr (.inr rfl)
    next => exact .inl rfl

/-- R137: between ordered bounds, and only there, the clamp changes nothing. -/
theorem clamp_eq_self_iff (ordered : lo ≤ hi) : clamp x lo hi = x ↔ lo ≤ x ∧ x ≤ hi := by
  rw [clamp_eq_min_max x lo hi ordered]
  omega

/-- R137: what is clamped lies between the bounds already. -/
theorem clamp_clamp (ordered : lo ≤ hi) : clamp (clamp x lo hi) lo hi = clamp x lo hi :=
  (clamp_eq_self_iff ordered).2 (clamp_mem x lo hi ordered)

/-- R137: for ordered bounds the clamp is monotone, as `min` and `max` are. -/
theorem clamp_le_clamp (ordered : lo ≤ hi) {x' : Int} (le : x ≤ x') : clamp x lo hi ≤ clamp x' lo hi := by
  rw [clamp_eq_min_max x lo hi ordered, clamp_eq_min_max x' lo hi ordered]
  exact min_le_min_right hi (max_le_max_right lo le)

end

/-- Settles O20, law by law. -/
theorem clampLaws : Obligations.ClampLaws := by
  refine ⟨fun x lo hi => ⟨clamp_eq_min_max x lo hi, clamp_of_crossed⟩, fun x lo hi ordered => ?_, fun x => ?_⟩
  · exact ⟨clamp_mem x lo hi ordered, clamp_eq_self_iff ordered, clamp_clamp ordered, fun _ => clamp_le_clamp ordered⟩
  · rw [clamp16_eq_max_min]
    omega

/-- R140. -/
theorem exec_cluClamp16 (x : Int) (s : State) :
    exec (.cluClamp16 x) s = .next { s with rsp := some ⟨bitsOf 64 (clamp16 x), 0⟩ } := rfl

/-- R141. -/
theorem exec_cluClamp (x lo hi : Int) (s : State) :
    exec (.cluClamp x lo hi) s = .next { s with rsp := some ⟨bitsOf 64 (clamp x lo hi), 0⟩ } := rfl

/-- Settles O18: the answer is an `int16`, which 64 bits hold. -/
theorem cluClampSixteen : Obligations.CluClampSixteen := by
  refine ⟨fun a b c => by rw [decode_cluClamp16, sextField_64], fun x s => ⟨_, exec_cluClamp16 x s, ?_⟩⟩
  obtain ⟨lower, upper⟩ := clamp16_mem x
  rw [bitsOf_64_toInt _ (by omega) (by omega), clamp16_eq_max_min]

/-- R13: the 64-bit bus holds every integer of its signed range. -/
theorem bitsOf_64_toInt_of_fitsSigned {z : Int} (fits : fitsSigned 64 z = true) : (bitsOf 64 z).toInt = z :=
  (sextField_64 _).symm.trans (sextField_busInt_64 fits)

/-- The clamp of operands that 64 bits hold is one of them, so 64 bits hold it, the bounds crossed or not. -/
theorem fitsSigned_clamp {x lo hi : Int} (wf : (Instr.cluClamp x lo hi).wellFormed = true) :
    fitsSigned 64 (clamp x lo hi) = true := by
  obtain ⟨fitsXLo, fitsHi⟩ := Bool.and_eq_true_iff.1 wf
  obtain ⟨fitsX, fitsLo⟩ := Bool.and_eq_true_iff.1 fitsXLo
  obtain same | same | same := clamp_cases x lo hi <;> rw [same] <;> assumption

/-- Settles O19: the answer on the bus is the clamp itself. -/
theorem cluClampArbitraryBounds : Obligations.CluClampArbitraryBounds := by
  refine ⟨fun a b c => by rw [decode_cluClamp, sextField_64, sextField_64, sextField_64],
    fun x lo hi s wf => ⟨_, exec_cluClamp x lo hi s, ?_⟩⟩
  rw [bitsOf_64_toInt_of_fitsSigned (fitsSigned_clamp wf)]
  exact ⟨clamp_eq_min_max x lo hi, clamp_of_crossed, clamp_cases x lo hi⟩

end Sys2Proof.Machine
end

section
/-! PROOFS. `ADP4_DECODE` against `A4D.SYM` (R151, O53), and where the stream procedures fail and what they complete with (R151 to
R154, R156, O52). -/

namespace Sys2Proof.Machine

/-- Settles O53: a decode that completes decoded the first `count` nibbles, symbol by symbol. -/
theorem decodeIsSymbolBySymbol : Obligations.DecodeIsSymbolBySymbol := by
  intro bytes count cap s t out done
  obtain ⟨-, -, decodes⟩ := adp4Decode_eq_done_iff.1 done
  exact decodes.eq_execTrace_a4dSym rfl

/-- R151: `count` is the number of samples decoded. -/
theorem Adp4Decodes.length_eq {count : Nat} {bytes : List Byte} {s t : State} {out : List Int}
    (h : Adp4Decodes count bytes s out t) : out.length = count := by
  induction h with
  | stop => rfl
  | high => rfl
  | byte _ _ ih => exact congrArg (· + 2) ih

/-- The loop of `ADP4_ENCODE` completes, since every push and every flush answers. -/
theorem exists_adp4EncodeLoop_eq_done (eos : Bool) (xs : List Int) (out : List Byte) (s : State) :
    ∃ o t, adp4EncodeLoop eos xs out s = .done o t := by
  induction xs generalizing out s with
  | nil =>
    cases eos with
    | false => exact ⟨out, s, rfl⟩
    | true =>
      obtain ⟨t, r, issued, -⟩ := exists_issue_a4eFlush s
      exact ⟨_, t, adp4EncodeEnd_true issued out⟩
  | cons x xs ih =>
    obtain ⟨t, r, _, issued, -⟩ := exists_issue_a4ePush x s
    rw [adp4EncodeLoop_cons issued]
    exact ih _ t

theorem exists_issue_s2dByte (b : Byte) (s : State) : ∃ t r, issue (.s2dByte b) s = some (t, r) := by
  obtain ⟨t, r, -, -, issued⟩ := exists_issue_eq (i := .s2dByte b) rfl s
  exact ⟨t, r, issued⟩

/-- `S2E.SAMPLE` issued with any integer codes the sample that its operand field holds, and answers. -/
theorem exists_issue_s2eSample (x : Int) (s : State) : ∃ t r, issue (.s2eSample x) s = some (t, r) := by
  obtain ⟨t, r, ran, answer⟩ := exists_exec_eq_next (.s2eSample (sextField 16 (busInt x))) s
  exact ⟨t, r, issue_of_exec (decode_s2eSample _ _ _) ran answer⟩

section
variable {α β : Type} {cmd : α → Instr}

/-- The loop that the SDX2 procedures share completes where every command of theirs answers. -/
theorem exists_streamLoop_eq_done_of_answers (answers : ∀ a s, ∃ t r, issue (cmd a) s = some (t, r))
    (value : Response → β) (as : List α) (out : List β) (s : State) : ∃ o t, streamLoop cmd value as out s = .done o t := by
  induction as generalizing out s with
  | nil => exact ⟨out, s, rfl⟩
  | cons a as ih =>
    obtain ⟨t, r, issued⟩ := answers a s
    rw [streamLoop_cons issued]
    exact ih _ t

/-- R156 for both SDX2 procedures: a capacity too small fails, any other completes with one value per input. -/
theorem streamCall_precondition (answers : ∀ a s, ∃ t r, issue (cmd a) s = some (t, r)) (value : Response → β) (as : List α)
    (cap : Nat) (s : State) :
    (cap < as.length → streamCall cmd value as cap s = .invalidArgument s)
      ∧ (as.length ≤ cap → ∃ out t, streamCall cmd value as cap s = .done out t ∧ out.length = as.length) := by
  refine ⟨fun short => if_pos short, fun fits => ?_⟩
  obtain ⟨out, t, done⟩ := exists_streamLoop_eq_done_of_answers answers value as [] s
  have length : out.length = as.length := by simpa using length_of_streamLoop done
  exact ⟨out, t, streamCall_eq_done_iff.2 ⟨length.trans_le fits, done⟩, length⟩

end

/-- R156 for `ADP4_DECODE`. -/
theorem adp4Decode_precondition (bytes : List Byte) (count cap : Nat) (s : State) :
    (bytes.length < (count + 1) / 2 ∨ cap < count → adp4Decode bytes count cap s = .invalidArgument s)
      ∧ ((count + 1) / 2 ≤ bytes.length → count ≤ cap →
          ∃ out t, adp4Decode bytes count cap s = .done out t ∧ out.length = count) := by
  refine ⟨fun short => if_pos short, fun enough fits => ?_⟩
  obtain ⟨out, t, decodes⟩ := exists_adp4Decodes enough s
  exact ⟨out, t, adp4Decode_eq_done_iff.2 ⟨enough, fits, decodes⟩, decodes.length_eq⟩

/-- R156 for `ADP4_ENCODE`, with `n_out` as R152 computes it. -/
theorem adp4Encode_precondition (samples : List Int) (eos : Bool) (cap : Nat) (s : State) :
    (cap < adp4EncodeLength s.a4e.phase samples.length eos → adp4Encode samples eos cap s = .invalidArgument s)
      ∧ (adp4EncodeLength s.a4e.phase samples.length eos ≤ cap → ∃ out t,
          adp4Encode samples eos cap s = .done out t ∧ out.length = adp4EncodeLength s.a4e.phase samples.length eos) := by
  refine ⟨fun short => if_pos short, fun fits => ?_⟩
  obtain ⟨out, t, done⟩ := exists_adp4EncodeLoop_eq_done eos samples [] s
  have length : out.length = adp4EncodeLength s.a4e.phase samples.length eos := by
    simpa using length_of_adp4EncodeLoop done
  exact ⟨out, t, adp4Encode_eq_done_iff.2 ⟨length.trans_le fits, done⟩, length⟩

/-- Settles O52: each procedure checks before its loop, and its loop completes because every command answers. -/
theorem streamPreconditions : Obligations.StreamPreconditions := by
  intro s cap
  refine ⟨fun bytes count => adp4Decode_precondition bytes count cap s, fun samples eos => ?_, fun bytes => ?_,
    fun samples => ?_⟩
  · simpa only [adp4EncodeLength_eq] using adp4Encode_precondition samples eos cap s
  · rw [sdx2Decode_eq_streamCall]
    exact streamCall_precondition exists_issue_s2dByte _ bytes cap s
  · rw [sdx2Encode_eq_streamCall]
    exact streamCall_precondition exists_issue_s2eSample _ samples cap s

end Sys2Proof.Machine
end

section
/-! PROOFS. What a step does when nothing is presented (R180, O8). -/

namespace Sys2Proof.Machine

/-- R180: with nothing presented the core takes no input and writes no register; only the last response goes (log 2). -/
theorem step_of_port_nil {s : State} (empty : s.port = []) : step s = .next (s.withRsp none) := by
  rw [step, empty, idle]

/-- Settles O8: the idle step changes the response and nothing else. -/
theorem idleKeepsEveryRegister : Obligations.IdleKeepsEveryRegister := by
  intro s empty
  have registers : sameRegisters s (s.withRsp none) := ⟨rfl, rfl, rfl, rfl⟩
  have port : (s.withRsp none).port = [] := empty
  exact ⟨s.withRsp none, step_of_port_nil empty, registers, port, rfl⟩

end Sys2Proof.Machine
end

section
/-! PROOFS. What a step does when the oldest input is the reset input (R185, O10), and that every step answers a next state, having
taken exactly the oldest input (log 10, O7). -/

namespace Sys2Proof.Machine

/-- R185: the reset input takes the whole state to the reset state, but for what is still presented after it (log 11). -/
theorem step_of_reset {s : State} {rest : List Input} (presented : s.port = .reset :: rest) :
    step s = .next (State.reset.withPort rest) := by
  rw [step, presented]
  rfl

/-- Settles O10: the next state is the reset state with the rest of the port. -/
theorem resetInputResetsEveryRegister : Obligations.ResetInputResetsEveryRegister := by
  intro s rest presented
  have registers : sameRegisters State.reset (State.reset.withPort rest) := ⟨rfl, rfl, rfl, rfl⟩
  exact ⟨State.reset.withPort rest, step_of_reset presented, registers, rfl, rfl⟩

/-- Running a command, reserved or listed, answers a next state and takes nothing from the port. -/
theorem exists_runCommand_eq_next (k : Command) (s : State) : ∃ t, runCommand k s = .next t ∧ t.port = s.port := by
  by_cases listed : k.op ∈ listedOpcodes
  · obtain ⟨i, decoded⟩ := exists_decode_eq_ok_iff.2 listed
    obtain ⟨t, -, run, -⟩ := exists_exec_eq_next i s
    obtain ⟨port, -⟩ := exec_onlyUnit run
    exact ⟨t, (runCommand_of_decode decoded s).trans run, port⟩
  · exact ⟨s.withRsp (some ⟨0, 2⟩), runCommand_of_reserved listed s, rfl⟩

/-- Settles O7, by what is presented: nothing, a command or the reset input. -/
theorem stepAlwaysAnswersNext : Obligations.StepAlwaysAnswersNext := by
  intro s
  match presented : s.port with
  | [] => exact ⟨s.withRsp none, step_of_port_nil presented, presented⟩
  | .command k :: rest =>
    obtain ⟨t, run, port⟩ := exists_runCommand_eq_next k (s.withPort rest)
    exact ⟨t, (step_of_command presented).trans run, port⟩
  | .reset :: rest => exact ⟨State.reset.withPort rest, step_of_reset presented, rfl⟩

end Sys2Proof.Machine
end
